-- ==== Sys2Proof/Word.lean ====
section
/-! DEFINITION. The word types of the machine (00_scope.md R4: CELL_BITS, XLEN and FL_BITS are 8, PC_BITS is 9). -/

namespace Sys2Proof

/-- A memory cell, an operand byte, a register value, FL or SP: 8 bits, unsigned (10_state.md R13, 20_memory.md R30). -/
abbrev Byte := BitVec 8

/-- The program counter: 9 bits (10_state.md R15). -/
abbrev PcWord := BitVec 9

/-- The Jump-Origin Set as the hardware's vector `JO[0..255]`, bit p set when p is a member (10_state.md R20). -/
abbrev OriginSet := BitVec 256

end Sys2Proof
end

