-- ==== Sys2Proof/Config.lean ====
section
/-! DEFINITION. The implementation parameters of 00_scope.md R4, and the two points of the program text the spec leaves to
the Loader (91_not_in_source.md N9, decision D22). The core itself leaves nothing open (70_reset_and_hazards.md R137). -/

namespace Sys2Proof.Config

/-- MEM_SIZE: memory cells, addresses 0..255. -/
abbrev memSize : Nat := 256

/-- NREG: register slots, indices 0..8 (conflict C1, decision D23). -/
abbrev nreg : Nat := 9

/-- 2^XLEN - 1, the largest value a register holds (R4, 42_alu.md R90). -/
abbrev regMax : Nat := 255

/-- SP_RESET. -/
def spReset : Byte := 0xF4#8

/-- MEM_FILL: what a cell the loaded image does not cover holds (decision D10; log entry 5). -/
def memFill : Byte := 0x00#8

/-- REG_RESET: every register slot at reset (decision D4; log entry 3). -/
def regReset : Byte := 0x00#8

/-- FL at reset: None, all of E, G, L clear (decision D5; log entry 4). -/
def flReset : Byte := 0x00#8

/-- FREE VALUE: whether a program line may have white space before its eight digits. The spec leaves it to the Loader
(91_not_in_source.md N9). DESIGN CHOICE, log entry 13. -/
opaque loaderAllowsLeadingSpace : Bool

/-- FREE VALUE: whether a comment may follow the eight digits with no white space between. The spec leaves it to the Loader
(91_not_in_source.md N9). DESIGN CHOICE, log entry 13. -/
opaque loaderAllowsTightComment : Bool

end Sys2Proof.Config
end

