-- ==== Sys2Proof/Syntax.lean ====
section
/-! DEFINITION. The eight instructions (30_encoding.md R51, R61) and the select of the dispatch multiplexer. -/

namespace Sys2Proof

/-- A register index as an operand byte gives it: 0..255, never masked (30_encoding.md R50). Indices 9..255 are no illegal
encoding; the handler's access raises OutOfRange (R57). -/
abbrev RegIndex := Byte

/-- An instruction: one constructor per row of spec/opcode_table.json, with the operand bytes that belong to it
(30_encoding.md R45). The bytes the loop reads and the instruction ignores (R50) are no part of it (log entry 16). -/
inductive Instr where
  /-- `LDI Rn, imm`: load-immediate (41_load_print.md R85). -/
  | ldi (rd : RegIndex) (imm : Byte)
  /-- `PRN Rn`: print-register (41_load_print.md R86). -/
  | prn (rs : RegIndex)
  /-- `MUL Ra, Rb`: multiply (42_alu.md R90). -/
  | mul (ra rb : RegIndex)
  /-- `CMP Ra, Rb`: compare (42_alu.md R91). -/
  | cmp (ra rb : RegIndex)
  /-- `JMP Rn`: jump-unconditional (43_jumps_halt.md R95). -/
  | jmp (rt : RegIndex)
  /-- `JEQ Rn`: jump-if-equal (43_jumps_halt.md R96). -/
  | jeq (rt : RegIndex)
  /-- `JNE Rn`: jump-if-not-equal (43_jumps_halt.md R97). -/
  | jne (rt : RegIndex)
  /-- `HLT`: halt (43_jumps_halt.md R98). -/
  | hlt
deriving DecidableEq, Repr

/-- The select output of the dispatch multiplexer: which of the eight handlers (50_interfaces.md R105). -/
inductive Op where
  | ldi | prn | mul | cmp | jmp | jeq | jne | hlt
deriving DecidableEq, Repr

/-- The handler an instruction belongs to. -/
def Instr.op : Instr → Op
  | .ldi _ _ => .ldi
  | .prn _ => .prn
  | .mul _ _ => .mul
  | .cmp _ _ => .cmp
  | .jmp _ => .jmp
  | .jeq _ => .jeq
  | .jne _ => .jne
  | .hlt => .hlt

/-- The mnemonic of this spec's listings (30_encoding.md R61, decision D15). -/
def Op.mnemonic : Op → String
  | .ldi => "LDI"
  | .prn => "PRN"
  | .mul => "MUL"
  | .cmp => "CMP"
  | .jmp => "JMP"
  | .jeq => "JEQ"
  | .jne => "JNE"
  | .hlt => "HLT"

end Sys2Proof
end

