-- ==== Sys2Proof/Machine/State.lean ====
section
/-! DEFINITION. The state of the machine (10_state.md R10), its reset value (R26), the reasons a step can stop, and the types
the handlers answer with (40_execute_loop.md R69). -/

namespace Sys2Proof.Machine

/-- The nine register slots, all alike (10_state.md R11). -/
abbrev RegFile := Vector Byte Config.nreg

/-- Memory as its listed cells: addresses strictly rising and below MEM_SIZE, no entry equal to MEM_FILL, which is what an
unlisted address reads as (20_memory.md R30, 10_state.md R26; log entries 5 and 10). -/
abbrev Memory := List Host.Cell

/-- RS (10_state.md R21). -/
inductive RunState where
  | running
  | halted
  | faulted
deriving DecidableEq, Repr

/-- The three fatal conditions (60_exceptions.md R115). They end the run; each is taken as a next state with RS = Faulted and
CAUSE set, so none of them is a `Fault` of the model. -/
inductive Fatal where
  /-- Raised by the fetch of a step and by a register access (R116). -/
  | outOfRange
  /-- Raised by the dispatch of a step (R117). -/
  | unknownOpcode
  /-- Raised by MUL (R118). -/
  | resultOutOfRange
deriving DecidableEq, Repr

/-- The ten items of 10_state.md R10, less the dispatch table, which is a constant (R24). -/
structure State where
  /-- `Mem[0..255]` (20_memory.md R30). -/
  mem : Memory
  /-- `x[0..8]` (R11). -/
  regs : RegFile
  /-- PC (R15). -/
  pc : PcWord
  /-- SP, a register of its own that no instruction touches (R17). -/
  sp : Byte
  /-- FL, layout `00000LGE` (R18). -/
  fl : Byte
  /-- JO, the Jump-Origin Set (R20). -/
  jo : OriginSet
  /-- RS (R21). -/
  rs : RunState
  /-- CAUSE; `none` is the spec's None (R22). -/
  cause : Option Fatal
  /-- OUT, oldest first (R23). -/
  out : List Byte
deriving DecidableEq, Repr

/-- The state after reset (10_state.md R26; 70_reset_and_hazards.md R135): nothing is loaded. -/
def State.reset : State where
  mem := []
  regs := Vector.replicate Config.nreg Config.regReset
  pc := 0#9
  sp := Config.spReset
  fl := Config.flReset
  jo := 0#256
  rs := .running
  cause := none
  out := []

/-- Why there is no step: the machine is in a terminal state (40_execute_loop.md R66). -/
inductive Fault where
  /-- Answered by `step` alone, when RS = Halted. Safe: the spec gives no step there (decision D20), and the model goes
  nowhere. -/
  | alreadyHalted
  /-- Answered by `step` alone, when RS = Faulted. Safe, for the same reason. -/
  | alreadyFaulted
deriving DecidableEq, Repr

/-- What the model gives no meaning. -/
inductive Refusal where
  /-- Answered by a refused arm of `exec` alone, with the instruction's mnemonic. Safe: the model stops. No arm of this model
  answers it: every instruction has its meaning. -/
  | notModelled (mnemonic : String)
deriving DecidableEq, Repr

/-- The three results a handler can give to the loop (40_execute_loop.md R69). -/
inductive HandlerResult where
  | noRedirect
  | redirect (target : Byte)
  | halt
deriving DecidableEq, Repr

/-- What a handler that completes gives: the register file, FL, what it emits, and its result. It has no way to write PC, JO,
RS, SP or memory (40_execute_loop.md R69, R82). -/
structure HandlerOut where
  regs : RegFile
  fl : Byte
  emit : Option Byte
  result : HandlerResult
deriving DecidableEq, Repr

/-- A handler: a pure function of the register file and FL (its operands applied) that completes or raises a fatal condition
(40_execute_loop.md R69, R82). -/
abbrev Handler := RegFile → Byte → Except Fatal HandlerOut

/-! One named update per field, so that no proof unfolds a record update. -/

def State.withMem (s : State) (v : Memory) : State := { s with mem := v }
def State.withRegs (s : State) (v : RegFile) : State := { s with regs := v }
def State.withPc (s : State) (v : PcWord) : State := { s with pc := v }
def State.withFl (s : State) (v : Byte) : State := { s with fl := v }
def State.withJo (s : State) (v : OriginSet) : State := { s with jo := v }
def State.withRs (s : State) (v : RunState) : State := { s with rs := v }
def State.withCause (s : State) (v : Option Fatal) : State := { s with cause := v }
def State.withOut (s : State) (v : List Byte) : State := { s with out := v }

end Sys2Proof.Machine
end

