-- ==== Sys2Proof/Machine/Flags.lean ====
section
/-! DEFINITION. The flag register's values and bits (10_state.md R18, R19), and the one flag computation (42_alu.md R91). -/

namespace Sys2Proof.Machine

/-- E alone: bit 0 (10_state.md R18; log entry 4). -/
def flagEqual : Byte := 0x01#8
/-- G alone: bit 1. -/
def flagGreater : Byte := 0x02#8
/-- L alone: bit 2. -/
def flagLess : Byte := 0x04#8

/-- E of FL, `fl_e = FL[0]`, the only flag an instruction reads (10_state.md R19, 50_interfaces.md R104). -/
def flE (fl : Byte) : Bool := fl.getLsbD 0
/-- G of FL. -/
def flG (fl : Byte) : Bool := fl.getLsbD 1
/-- L of FL. -/
def flL (fl : Byte) : Bool := fl.getLsbD 2

/-- The flags CMP writes, by the unsigned order of the two values (42_alu.md R91, decision D19). -/
def compareFlags (u v : Byte) : Byte :=
  if u.toNat = v.toNat then flagEqual else if u.toNat < v.toNat then flagLess else flagGreater

end Sys2Proof.Machine
end

