-- ==== Sys2Proof/Machine/Operands.lean ====
section
/-! DEFINITION. The operand forms (30_encoding.md R50) and the register file's ports (10_state.md R12, R14). -/

namespace Sys2Proof.Machine

/-- `x[i]`: the value of slot i, or OutOfRange when i is 9 or more (10_state.md R12). -/
def regRead (r : RegFile) (i : RegIndex) : Except Fatal Byte :=
  if h : i.toNat < Config.nreg then .ok (r[i.toNat]'h) else .error .outOfRange

/-- `x[i] <- v`: slot i takes v, or OutOfRange when i is 9 or more and nothing is written (10_state.md R12). -/
def regWrite (r : RegFile) (i : RegIndex) (v : Byte) : Except Fatal RegFile :=
  if h : i.toNat < Config.nreg then .ok (r.set i.toNat v h) else .error .outOfRange

/-- The immediate form: `zext_8(operand_b)`, the byte itself (30_encoding.md R50). -/
def immediate (b : Byte) : Byte := b.setWidth 8

end Sys2Proof.Machine
end

