-- ==== Sys2Proof/Decode.lean ====
section
/-! DEFINITION. The opcode map, the instruction decoder, decoding a fetched window of three bytes, and the encoder
(30_encoding.md R45 to R58). -/

namespace Sys2Proof

/-- The opcode byte of each handler: THE ONE TABLE of 30_encoding.md R54 (decision D1; log entry 1). -/
def opcodeOf : Op → Byte
  | .ldi => 0b10000010#8
  | .prn => 0b01000111#8
  | .mul => 0b10100010#8
  | .cmp => 0b10100111#8
  | .jmp => 0b01010100#8
  | .jeq => 0b01010101#8
  | .jne => 0b01010110#8
  | .hlt => 0b00000001#8

/-- The eight handlers in the document's order (30_encoding.md R51). -/
def allOps : List Op := [.ldi, .prn, .mul, .cmp, .jmp, .jeq, .jne, .hlt]

/-- The dispatch table: opcode byte to handler, eight entries, constant (10_state.md R24, 30_encoding.md R51). -/
def dispatchTable : List (Byte × Op) := allOps.map fun o => (opcodeOf o, o)

/-- The dispatch multiplexer: an exact match of all eight bits against the keys, `none` for an unknown opcode
(30_encoding.md R55, R56; 50_interfaces.md R105). -/
def dispatch (op : Byte) : Option Op := (dispatchTable.find? fun row => row.1 == op).map Prod.snd

/-- The five outputs of the instruction decoder (30_encoding.md R47, conflict C2; 50_interfaces.md R102). -/
structure DecoderOut where
  /-- `op[7:6]`. -/
  operandCount : BitVec 2
  /-- `op[5]`, informational only (R49). -/
  isAlu : Bool
  /-- `op[4]`, informational only (R49; 40_execute_loop.md R80). -/
  isPcSetting : Bool
  /-- `op[3:0]`. -/
  ident : BitVec 4
  /-- `op[7:6] + 1`. -/
  increment : BitVec 3
deriving DecidableEq, Repr

/-- The default PC increment `AA + 1`; bits 3..0 do not enter it (30_encoding.md R48, conflict C3). -/
def increment (op : Byte) : BitVec 3 := (op.extractLsb' 6 2).setWidth 3 + 1#3

/-- The instruction decoder: total on every byte, no side effects (30_encoding.md R46, R47). -/
def decodeFields (op : Byte) : DecoderOut where
  operandCount := op.extractLsb' 6 2
  isAlu := op.getLsbD 5
  isPcSetting := op.getLsbD 4
  ident := op.extractLsb' 0 4
  increment := increment op

/-- Why bytes decode to no instruction. -/
inductive DecodeError where
  /-- The opcode byte is none of the eight keys (60_exceptions.md R117). -/
  | unknownOpcode (op : Byte)
  /-- Fewer than three bytes: the loop always reads three (40_execute_loop.md R67). -/
  | incompleteWindow
deriving DecidableEq, Repr

/-- The instruction a handler makes of the two operand bytes; bytes it does not use are ignored (30_encoding.md R50). -/
def Op.instr (o : Op) (a b : Byte) : Instr :=
  match o with
  | .ldi => .ldi a b
  | .prn => .prn a
  | .mul => .mul a b
  | .cmp => .cmp a b
  | .jmp => .jmp a
  | .jeq => .jeq a
  | .jne => .jne a
  | .hlt => .hlt

/-- Decode the window the loop fetches: opcode, operand_a, operand_b (30_encoding.md R45, R55; 40_execute_loop.md R68). -/
def decode (op a b : Byte) : Except DecodeError Instr :=
  match dispatch op with
  | some o => .ok (o.instr a b)
  | none => .error (.unknownOpcode op)

/-- Decode any list of bytes in ascending address order (20_memory.md R35). -/
def decodeBytes : List Byte → Except DecodeError Instr
  | op :: a :: b :: _ => decode op a b
  | _ => .error .incompleteWindow

/-- The bytes of an instruction in ascending address order (30_encoding.md R45, R61). -/
def encode (i : Instr) : List Byte :=
  match i with
  | .ldi rd imm => [opcodeOf i.op, rd, imm]
  | .prn rs => [opcodeOf i.op, rs]
  | .mul ra rb => [opcodeOf i.op, ra, rb]
  | .cmp ra rb => [opcodeOf i.op, ra, rb]
  | .jmp rt => [opcodeOf i.op, rt]
  | .jeq rt => [opcodeOf i.op, rt]
  | .jne rt => [opcodeOf i.op, rt]
  | .hlt => [opcodeOf i.op]

/-- The k-th byte of an instruction word numbered as spec/opcode_table.json numbers it, whose bits from nbits up are zero:
byte 0 is the opcode at the lowest address (20_memory.md R35). -/
def tableWordByte (nbits w k : Nat) : Byte := BitVec.ofNat 8 ((w % 2 ^ nbits) / 2 ^ (8 * k))

/-- The instruction the decoder reads from a table word. -/
def decodeTableWord (nbits w : Nat) : Option Instr :=
  match decode (tableWordByte nbits w 0) (tableWordByte nbits w 1) (tableWordByte nbits w 2) with
  | .ok i => some i
  | .error _ => none

end Sys2Proof
end

