-- ==== Sys2Proof/Machine/Ops.lean ====
section
/-! DEFINITION. The shared operations: memory, the Jump-Origin Set, entering a fatal condition, the fetch, and steps 4 to 6 of
the loop, the program-counter update policy. -/

namespace Sys2Proof.Machine

/-- What the cell at an address holds: its entry, or MEM_FILL when it has none (10_state.md R26). -/
def Memory.cell : Memory → Nat → Byte
  | [], _ => Config.memFill
  | (k, v) :: rest, a => if k = a then v else Memory.cell rest a

/-- The canonical form from an address on: rising addresses in the space, no entry equal to MEM_FILL. -/
def Memory.wfFrom (lo : Nat) : Memory → Bool
  | [] => true
  | (k, v) :: rest =>
    decide (lo ≤ k) && decide (k < Config.memSize) && (v != Config.memFill) && Memory.wfFrom (k + 1) rest

/-- The canonical form of a memory (log entry 10). -/
def Memory.wf (m : Memory) : Bool := Memory.wfFrom 0 m

/-- Put a byte in a cell, keeping the canonical form: putting MEM_FILL removes the entry. -/
def Memory.put : Memory → Nat → Byte → Memory
  | [], a, v => if v = Config.memFill then [] else [(a, v)]
  | (k, w) :: rest, a, v =>
    if a < k then (if v = Config.memFill then (k, w) :: rest else (a, v) :: (k, w) :: rest)
    else if a = k then (if v = Config.memFill then rest else (a, v) :: rest)
    else (k, w) :: Memory.put rest a v

/-- `MemRead(addr, 1)`: bounds-checked, the address is not reduced (20_memory.md R34). -/
def memRead (m : Memory) (addr : Nat) : Except Fatal Byte :=
  if addr < Config.memSize then .ok (m.cell addr) else .error .outOfRange

/-- `MemWrite(addr, 1, v)`: no instruction uses it, only the host's `load` (00_scope.md section 5, 20_memory.md R33). -/
def memWrite (m : Memory) (addr : Nat) (v : Byte) : Except Fatal Memory :=
  if addr < Config.memSize then .ok (m.put addr v) else .error .outOfRange

/-- `p ∈ JO` (10_state.md R20). -/
def joMem (jo : OriginSet) (p : PcWord) : Bool := jo.getLsbD p.toNat

/-- `JO ∪ {p}`, that is `JO[p] <- 1` (10_state.md R20; log entry 9). -/
def joAdd (jo : OriginSet) (p : PcWord) : OriginSet := jo ||| BitVec.twoPow 256 p.toNat

/-- TAKING A FATAL CONDITION: RS and CAUSE are written and nothing else; the PC stays (60_exceptions.md R120). There is no
handler to go to (R121) and no return (R122). -/
def raise (k : Fatal) (s : State) : State := (s.withRs .faulted).withCause (some k)

/-- Step 1: the three bytes at PC, PC + 1, PC + 2, always all three (40_execute_loop.md R67). -/
def fetch (s : State) : Except Fatal (Byte × Byte × Byte) :=
  match memRead s.mem s.pc.toNat, memRead s.mem (s.pc.toNat + 1), memRead s.mem (s.pc.toNat + 2) with
  | .ok op, .ok a, .ok b => .ok (op, a, b)
  | _, _, _ => .error .outOfRange

/-- The state with a completed handler's effects in it: registers, FL and output (40_execute_loop.md R69, `Emit` of 00_scope.md
section 5). -/
def commit (o : HandlerOut) (s : State) : State :=
  ((s.withRegs o.regs).withFl o.fl).withOut (s.out ++ o.emit.toList)

/-- The stop of step 4: RS becomes Halted, PC and JO stay (40_execute_loop.md R70). -/
def stop (s : State) : State := s.withRs .halted

/-- Step 5: the current PC enters JO, and PC takes the target unchecked (40_execute_loop.md R71). -/
def redirectTo (t : Byte) (s : State) : State := (s.withJo (joAdd s.jo s.pc)).withPc (t.setWidth 9)

/-- Step 6: the default advance of an opcode byte, not reduced modulo 256 (40_execute_loop.md R72). -/
def advance (op : Byte) (s : State) : State := s.withPc (s.pc + (increment op).setWidth 9)

/-- Steps 4 to 6: the PC-update policy (40_execute_loop.md R70 to R72). The membership test comes before the result is looked
at, so a PC already in JO halts whatever the handler answered (R77). -/
def pcPolicy (op : Byte) (result : HandlerResult) (s : State) : State :=
  if joMem s.jo s.pc then stop s
  else
    match result with
    | .halt => stop s
    | .redirect t => redirectTo t s
    | .noRedirect => advance op s

/-- Steps 3 to 6 for the handler of an opcode: run it, and either take the fatal condition it raises or keep its effects and
apply the PC-update policy (40_execute_loop.md R69 to R73, R75). -/
def retire (op : Op) (h : Handler) (s : State) : Host.Outcome State Fault Refusal :=
  match h s.regs s.fl with
  | .error k => .next (raise k s)
  | .ok o => .next (pcPolicy (opcodeOf op) o.result (commit o s))

end Sys2Proof.Machine
end

