-- ==== Sys2Proof/Machine/Alu.lean ====
section
/-! DEFINITION. The handlers and meanings of MUL and CMP (42_alu.md). -/

namespace Sys2Proof.Machine

/-- The exact product of two register values, 0..65025 (42_alu.md R90). -/
def product (u v : Byte) : Nat := u.toNat * v.toNat

/-- The handler of MUL: both indices are checked, then the exact product, then the write (42_alu.md R90, R92). Both reads see
the values from before the step, also when the operands name one register (10_state.md R14). -/
def handleMul (ra rb : RegIndex) : Handler := fun r fl =>
  match regRead r ra with
  | .error k => .error k
  | .ok u =>
    match regRead r rb with
    | .error k => .error k
    | .ok v =>
      if product u v > Config.regMax then .error .resultOutOfRange
      else
        match regWrite r ra (BitVec.ofNat 8 (product u v)) with
        | .error k => .error k
        | .ok r' => .ok { regs := r', fl := fl, emit := none, result := .noRedirect }

/-- The handler of CMP: both indices are checked, then all of FL is written (42_alu.md R91). -/
def handleCmp (ra rb : RegIndex) : Handler := fun r _ =>
  match regRead r ra with
  | .error k => .error k
  | .ok u =>
    match regRead r rb with
    | .error k => .error k
    | .ok v => .ok { regs := r, fl := compareFlags u v, emit := none, result := .noRedirect }

/-- MUL (42_alu.md R90). -/
def execMul (ra rb : RegIndex) (s : State) : Host.Outcome State Fault Refusal :=
  retire .mul (handleMul ra rb) s

/-- CMP (42_alu.md R91). -/
def execCmp (ra rb : RegIndex) (s : State) : Host.Outcome State Fault Refusal :=
  retire .cmp (handleCmp ra rb) s

end Sys2Proof.Machine
end

