-- ==== Sys2Proof/Machine/Control.lean ====
section
/-! DEFINITION. The handlers and meanings of JMP, JEQ, JNE and HLT (43_jumps_halt.md). A jump handler only proposes a target;
the PC-update policy writes the PC. -/

namespace Sys2Proof.Machine

/-- A jump handler whose redirect depends on FL: the register is read, and its index checked, whether or not the jump is
taken (43_jumps_halt.md R96, decision D25; log entry 18). -/
def handleJump (taken : Byte → Bool) (rt : RegIndex) : Handler := fun r fl =>
  match regRead r rt with
  | .error k => .error k
  | .ok t =>
    .ok { regs := r, fl := fl, emit := none, result := if taken fl then .redirect t else .noRedirect }

/-- The handler of JMP: always proposes its target (43_jumps_halt.md R95). -/
def handleJmp (rt : RegIndex) : Handler := handleJump (fun _ => true) rt

/-- The handler of JEQ: proposes its target when E is set (43_jumps_halt.md R96). -/
def handleJeq (rt : RegIndex) : Handler := handleJump (fun fl => flE fl) rt

/-- The handler of JNE: proposes its target when E is clear (43_jumps_halt.md R97). -/
def handleJne (rt : RegIndex) : Handler := handleJump (fun fl => !flE fl) rt

/-- The handler of HLT: the halt signal, no register accessed (43_jumps_halt.md R98). -/
def handleHlt : Handler := fun r fl => .ok { regs := r, fl := fl, emit := none, result := .halt }

/-- JMP (43_jumps_halt.md R95). -/
def execJmp (rt : RegIndex) (s : State) : Host.Outcome State Fault Refusal := retire .jmp (handleJmp rt) s

/-- JEQ (43_jumps_halt.md R96). -/
def execJeq (rt : RegIndex) (s : State) : Host.Outcome State Fault Refusal := retire .jeq (handleJeq rt) s

/-- JNE (43_jumps_halt.md R97). -/
def execJne (rt : RegIndex) (s : State) : Host.Outcome State Fault Refusal := retire .jne (handleJne rt) s

/-- HLT (43_jumps_halt.md R98). -/
def execHlt (s : State) : Host.Outcome State Fault Refusal := retire .hlt handleHlt s

end Sys2Proof.Machine
end

