-- ==== Sys2Proof/Machine/LoadPrint.lean ====
section
/-! DEFINITION. The handlers and meanings of LDI and PRN (41_load_print.md). -/

namespace Sys2Proof.Machine

/-- The handler of LDI: `x[operand_a] <- zext_8(operand_b)` (41_load_print.md R85). -/
def handleLdi (rd : RegIndex) (imm : Byte) : Handler := fun r fl =>
  match regWrite r rd (immediate imm) with
  | .error k => .error k
  | .ok r' => .ok { regs := r', fl := fl, emit := none, result := .noRedirect }

/-- The handler of PRN: `Emit(x[operand_a])` (41_load_print.md R86). -/
def handlePrn (rs : RegIndex) : Handler := fun r fl =>
  match regRead r rs with
  | .error k => .error k
  | .ok v => .ok { regs := r, fl := fl, emit := some v, result := .noRedirect }

/-- LDI (41_load_print.md R85). -/
def execLdi (rd : RegIndex) (imm : Byte) (s : State) : Host.Outcome State Fault Refusal :=
  retire .ldi (handleLdi rd imm) s

/-- PRN (41_load_print.md R86). -/
def execPrn (rs : RegIndex) (s : State) : Host.Outcome State Fault Refusal :=
  retire .prn (handlePrn rs) s

end Sys2Proof.Machine
end

