-- ==== Sys2Proof/Machine/Dispatch.lean ====
section
/-! DEFINITION. `exec`: one arm per instruction, each a direct call of its meaning (40_execute_loop.md R68, R69). -/

namespace Sys2Proof.Machine

/-- Steps 3 to 6 of the loop for a decoded instruction. RS is `step`'s precondition, tested there (log entry 8). -/
def exec (i : Instr) (s : State) : Host.Outcome State Fault Refusal :=
  match i with
  -- 41_load_print.md
  | .ldi rd imm => Sys2Proof.Machine.execLdi rd imm s
  | .prn rs => Sys2Proof.Machine.execPrn rs s
  -- 42_alu.md
  | .mul ra rb => Sys2Proof.Machine.execMul ra rb s
  | .cmp ra rb => Sys2Proof.Machine.execCmp ra rb s
  -- 43_jumps_halt.md
  | .jmp rt => Sys2Proof.Machine.execJmp rt s
  | .jeq rt => Sys2Proof.Machine.execJeq rt s
  | .jne rt => Sys2Proof.Machine.execJne rt s
  | .hlt => Sys2Proof.Machine.execHlt s

end Sys2Proof.Machine
end

