-- ==== Sys2Proof/Machine/Step.lean ====
section
/-! DEFINITION. One step of the execute loop (40_execute_loop.md R73), and placing an instruction where the step fetches. -/

namespace Sys2Proof.Machine

/-- `step()` of 40_execute_loop.md R73. It is defined only when RS = Running; in a terminal state there is no step, which the
model says with a named fault (R66). A failed fetch and an unknown opcode are taken as fatal conditions, a next state. -/
def step (s : State) : Host.Outcome State Fault Refusal :=
  match s.rs with
  | .halted => .fault .alreadyHalted
  | .faulted => .fault .alreadyFaulted
  | .running =>
    match fetch s with
    | .error k => .next (raise k s)
    | .ok (op, a, b) =>
      match decode op a b with
      | .error _ => .next (raise .unknownOpcode s)
      | .ok i => exec i s

/-- The state with a table word's three bytes in the cells at PC, PC + 1 and PC + 2, as the host's `load` would have put them
there (log entry 7). -/
def State.withFetchWord (s : State) (nbits w : Nat) : State :=
  s.withMem
    (((s.mem.put s.pc.toNat (tableWordByte nbits w 0)).put (s.pc.toNat + 1) (tableWordByte nbits w 1)).put
      (s.pc.toNat + 2) (tableWordByte nbits w 2))

end Sys2Proof.Machine
end

