-- ==== Sys2Proof/Machine/Blocks.lean ====
section
/-! DEFINITION. The core drawn as its six blocks and their signals (50_interfaces.md R101 to R108): what each port carries in one
step, and the next state as the priority multiplexer of R106. The signal names are the spec's own (decision D17). -/

namespace Sys2Proof.Machine

/-- What an instruction drives on the register file's three ports (50_interfaces.md R103). -/
structure PortDrive where
  raEn : Bool
  ra : RegIndex
  rbEn : Bool
  rb : RegIndex
  wEn : Bool
  wa : RegIndex
deriving DecidableEq, Repr

/-- The port table of 50_interfaces.md R103; no handler selected drives nothing. A port that is off carries index 0
(log entry 17). -/
def portDrive (sel : Option Op) (a b : Byte) : PortDrive :=
  match sel with
  | some .ldi => { raEn := false, ra := 0#8, rbEn := false, rb := 0#8, wEn := true, wa := a }
  | some .mul => { raEn := true, ra := a, rbEn := true, rb := b, wEn := true, wa := a }
  | some .cmp => { raEn := true, ra := a, rbEn := true, rb := b, wEn := false, wa := 0#8 }
  | some .prn | some .jmp | some .jeq | some .jne =>
    { raEn := true, ra := a, rbEn := false, rb := 0#8, wEn := false, wa := 0#8 }
  | some .hlt | none => { raEn := false, ra := 0#8, rbEn := false, rb := 0#8, wEn := false, wa := 0#8 }

/-- A port's range error: enabled, and the index is 9 or more on all eight bits (50_interfaces.md R103). -/
def portOor (en : Bool) (i : RegIndex) : Bool := en && decide (i.toNat ≥ Config.nreg)

/-- A read port's data; 0 when the port is off or out of range, where the spec gives it no value (log entry 17). -/
def portData (r : RegFile) (en : Bool) (i : RegIndex) : Byte :=
  if h : i.toNat < Config.nreg then (if en then r[i.toNat]'h else 0#8) else 0#8

/-- The write port. -/
def portWrite (r : RegFile) (en : Bool) (i : RegIndex) (v : Byte) : RegFile :=
  if h : i.toNat < Config.nreg then (if en then r.set i.toNat v h else r) else r

/-- `wdata` (50_interfaces.md R103): LDI's operand_b, MUL's product. The table gives it no value while the write port is off, nor for
a product above 255: it carries the low 8 bits of the product of the two read ports' data then (DESIGN CHOICE, log entry 17; no next
state depends on it). -/
def writeData (sel : Option Op) (b rdataA rdataB : Byte) : Byte :=
  if sel = some .ldi then b else rdataA * rdataB

/-- The flag register's write data `00000LGE` from the unsigned comparison (50_interfaces.md R104). -/
def flData (rdataA rdataB : Byte) : Byte :=
  0#5 ++ BitVec.ofBool (rdataA.ult rdataB) ++ BitVec.ofBool (rdataB.ult rdataA) ++ BitVec.ofBool (rdataA == rdataB)

/-- The selected handler's result (50_interfaces.md R106). -/
def selResult (sel : Option Op) (flE : Bool) (rdataA : Byte) : HandlerResult :=
  match sel with
  | some .jmp => .redirect rdataA
  | some .jeq => if flE then .redirect rdataA else .noRedirect
  | some .jne => if flE then .noRedirect else .redirect rdataA
  | some .hlt => .halt
  | _ => .noRedirect

/-- The fatal lines in priority order (50_interfaces.md R106, 60_exceptions.md R119). -/
def fatalLine (fetchOor unknown raOor rbOor waOor mulOverflow : Bool) : Option Fatal :=
  if fetchOor then some .outOfRange
  else if unknown then some .unknownOpcode
  else if raOor || rbOor || waOor then some .outOfRange
  else if mulOverflow then some .resultOutOfRange
  else none

/-- What the blocks hand to the loop control in one step (50_interfaces.md R106): the fatal line; the register file and FL after the
step's write (R103, R104); the emission (R108); the handler's result. While a fatal line is up the register file and FL are as they
were and nothing is emitted, as those rules say; the result then is what `selResult` gives, where the spec gives it no value (DESIGN
CHOICE, log entry 17; no next state depends on it). -/
structure BlockSignals where
  fatal : Option Fatal
  regs : RegFile
  fl : Byte
  outValid : Option Byte
  result : HandlerResult

/-- The signals of one step, from the fetch error, the multiplexer's select, the two operand bytes, the register file and FL
(50_interfaces.md R103 to R108). Only a step with no fatal condition writes a register (R103), writes FL (`fl_we`, R104: a CMP whose
two reads succeeded) or raises `out_valid` (R108: a PRN that completes); `outValid` carries `out_data` while it is up. -/
def blockSignals (fetchOor : Bool) (sel : Option Op) (a b : Byte) (r : RegFile) (fl : Byte) : BlockSignals :=
  let d := portDrive sel a b
  let rdataA := portData r d.raEn d.ra
  let rdataB := portData r d.rbEn d.rb
  let mulOverflow := (sel == some .mul) && decide (rdataA.toNat * rdataB.toNat > 255)
  let fatal := fatalLine fetchOor sel.isNone (portOor d.raEn d.ra) (portOor d.rbEn d.rb) (portOor d.wEn d.wa) mulOverflow
  let completes := fatal.isNone
  { fatal := fatal
    regs := portWrite r (d.wEn && completes) d.wa (writeData sel b rdataA rdataB)
    fl := if sel = some .cmp ∧ completes = true then flData rdataA rdataB else fl
    outValid := if sel = some .prn ∧ completes = true then some rdataA else none
    result := selResult sel (fl.getLsbD 0) rdataA }

/-- The next state in priority order: the fatal lines, the stop, the redirect, the default advance (50_interfaces.md R106).
A stop keeps the step's writes and its emission (40_execute_loop.md R70). -/
def muxSelect (op : Byte) (sig : BlockSignals) (s : State) : State :=
  let done : State := { s with regs := sig.regs, fl := sig.fl, out := s.out ++ sig.outValid.toList }
  match sig.fatal with
  | some k => { s with rs := .faulted, cause := some k }
  | none =>
    if sig.result = .halt ∨ s.jo.getLsbD s.pc.toNat = true then { done with rs := .halted }
    else
      match sig.result with
      | .redirect t => { done with jo := s.jo ||| (1#256 <<< s.pc.toNat), pc := 0#1 ++ t }
      | _ => { done with pc := s.pc + (decodeFields op).increment.setWidth 9 }

/-- The next state of a running machine as the blocks compute it (50_interfaces.md R106, R107). A fetch address above 255 brings the
fill byte beside `fetch_oor`, where the spec gives it no byte (DESIGN CHOICE, log entry 17; no next state depends on it). -/
def muxNext (s : State) : State :=
  let p := s.pc.toNat
  let op := s.mem.cell p
  muxSelect op
    (blockSignals (decide (p + 2 > 255)) (dispatch op) (s.mem.cell (p + 1)) (s.mem.cell (p + 2)) s.regs s.fl) s

end Sys2Proof.Machine
end

