-- ==== Sys2Proof/WellFormed.lean ====
section
/-! DEFINITION. What 70_reset_and_hazards.md R143 asks of a program's operands and 50_interfaces.md R109 of an image. An
instruction that fails the check still encodes, decodes and executes: its register access raises OutOfRange
(30_encoding.md R57; log entry 15). -/

namespace Sys2Proof

/-- The register indices an instruction accesses, operand a first (60_exceptions.md R116 b). An immediate and an ignored
byte are no register index (30_encoding.md R50). -/
def Instr.registers : Instr → List RegIndex
  | .ldi rd _ => [rd]
  | .prn rs => [rs]
  | .mul ra rb => [ra, rb]
  | .cmp ra rb => [ra, rb]
  | .jmp rt => [rt]
  | .jeq rt => [rt]
  | .jne rt => [rt]
  | .hlt => []

/-- Every register the instruction names exists: index below NREG (70_reset_and_hazards.md R143). -/
def Instr.wf (i : Instr) : Bool := i.registers.all fun r => decide (r.toNat < Config.nreg)

/-- An image `load` accepts: 0 to 256 bytes (50_interfaces.md R109). -/
def imageWf (image : List Byte) : Bool := decide (image.length ≤ Config.memSize)

end Sys2Proof
end

