-- ==== Sys2Proof/Machine/HostInterface.lean ====
section
/-! DEFINITION. What the host does before and after a run: `load`, `run`, and what it observes (50_interfaces.md R109 to R111). -/

namespace Sys2Proof.Machine

/-- Write bytes to consecutive cells from an address on. -/
def writeImage : Nat → List Byte → Memory → Memory
  | _, [], m => m
  | a, b :: rest, m => writeImage (a + 1) rest (m.put a b)

/-- The memory `load` leaves: the image from address 0, MEM_FILL elsewhere (50_interfaces.md R109). -/
def imageMemory (image : List Byte) : Memory := writeImage 0 image []

/-- What `load` reports (50_interfaces.md R109). -/
inductive LoadStatus where
  | loaded
  /-- The image is longer than 256 bytes (decision D10). -/
  | refused
deriving DecidableEq, Repr

/-- `load(memory_image)`: every piece of state takes its reset value, with the image in memory; a longer image is refused and
the state stays as it was (50_interfaces.md R109, 70_reset_and_hazards.md R135). -/
def load (image : List Byte) (s : State) : LoadStatus × State :=
  if imageWf image then (.loaded, State.reset.withMem (imageMemory image)) else (.refused, s)

/-- Steps while there is one, at most n of them (40_execute_loop.md R74). In a terminal state nothing is done (R66). -/
def runFor : Nat → State → State
  | 0, s => s
  | n + 1, s =>
    match step s with
    | .next s' => runFor n s'
    | .fault _ => s
    | .refused _ => s

/-- The bound of 40_execute_loop.md R79: 255 × 254 steps that complete normally, and the one that halts or faults. -/
def runBound : Nat := 255 * 254 + 1

/-- What `run` reports (40_execute_loop.md R74). -/
inductive RunStatus where
  | success
  | failure (cause : Option Fatal)
  /-- Not an outcome of the spec: no run ends so, by 40_execute_loop.md R79 (log entry 12). -/
  | unfinished
deriving DecidableEq, Repr

/-- Success if Halted, failure with CAUSE if Faulted (40_execute_loop.md R74, 50_interfaces.md R110). -/
def runStatus (s : State) : RunStatus :=
  match s.rs with
  | .halted => .success
  | .faulted => .failure s.cause
  | .running => .unfinished

/-- `run()`: steps while RS = Running, then the report. It always ends within `runBound` steps (R79; log entry 12). -/
def run (s : State) : RunStatus × State :=
  let t := runFor runBound s
  (runStatus t, t)

/-- The code of CAUSE on the status port (10_state.md R22). -/
def causeCode : Option Fatal → Nat
  | none => 0
  | some .outOfRange => 1
  | some .unknownOpcode => 2
  | some .resultOutOfRange => 3

/-- One decimal digit. -/
def digitChar (d : Nat) : Char := Char.ofNat ('0'.toNat + d)

/-- The decimal numeral of a value 0..255, no sign, no leading zeros (10_state.md R23). -/
def decimal (v : Byte) : List Char :=
  let n := v.toNat
  if n < 10 then [digitChar n]
  else if n < 100 then [digitChar (n / 10), digitChar (n % 10)]
  else [digitChar (n / 100), digitChar (n / 10 % 10), digitChar (n % 10)]

/-- OUT as text: each value's numeral and a line feed (10_state.md R23, decision D14; log entry 11). -/
def outText (out : List Byte) : List Char := out.flatMap fun v => decimal v ++ ['\n']

end Sys2Proof.Machine
end

