-- ==== Sys2Proof/Machine/Loader.lean ====
section
/-! DEFINITION. The Loader, outside the core: program text to image (30_encoding.md R60; 50_interfaces.md R113;
60_exceptions.md R124). A source file is given as its lines, each a list of characters without the line end (log entry 14). -/

namespace Sys2Proof.Machine

/-- White space inside a line (log entry 14). -/
def isBlank (c : Char) : Bool := c == ' ' || c == '\t' || c == '\r'

/-- A binary digit's bit. -/
def binDigit (c : Char) : Option Bool := if c == '0' then some false else if c == '1' then some true else none

/-- Read n binary digits, most significant first, and give their value and the rest of the line (30_encoding.md R60). -/
def binDigits : Nat → Nat → List Char → Option (Nat × List Char)
  | 0, acc, cs => some (acc, cs)
  | _ + 1, _, [] => none
  | n + 1, acc, c :: cs =>
    match binDigit c with
    | none => none
    | some d => binDigits n (2 * acc + d.toNat) cs

/-- A byte as a program line writes it: its bits 7 down to 0 as digits (30_encoding.md R60). -/
def byteLine (b : Byte) : List Char :=
  (List.range 8).map fun k => if b.getLsbD (7 - k) then '1' else '0'

/-- What may follow the eight digits: white space, then nothing or a comment. Whether a comment may follow at once is a free
value (91_not_in_source.md N9; log entry 13). -/
def tailOk : List Char → Bool
  | [] => true
  | c :: cs =>
    if c == '#' then Config.loaderAllowsTightComment
    else
      match isBlank c, cs.dropWhile isBlank with
      | true, [] => true
      | true, d :: _ => d == '#'
      | false, _ => false

/-- What one source line is (30_encoding.md R60). -/
inductive LineKind where
  /-- Blank, or comment only (white space may stand before the comment: log entry 20): skipped. -/
  | skipped
  | byte (b : Byte)
  | malformed
deriving DecidableEq, Repr

/-- Classify a line. Whether white space may stand before the digits is a free value (91_not_in_source.md N9; log entry 13). A line
of white space and then a comment is skipped as comment-only: DESIGN CHOICE, log entry 20, since decision D22 leaves leading white
space to the Loader and N9 is silent on it before a comment. A line of more than eight digits is malformed, not truncated: DESIGN
CHOICE, log entry 14 (N9, decision D22). Unsafe for a claim about such a line. -/
def lineKind (line : List Char) : LineKind :=
  match line.dropWhile isBlank with
  | [] => .skipped
  | c :: cs =>
    if c == '#' then .skipped
    else
      match binDigits 8 0 (c :: cs) with
      | none => .malformed
      | some (v, tail) =>
        if tailOk tail && ((line.head?.map isBlank != some true) || Config.loaderAllowsLeadingSpace) then
          .byte (BitVec.ofNat 8 v)
        else .malformed

/-- The Loader's two error kinds (60_exceptions.md R124). -/
inductive LoaderError where
  | missingProgramArgument
  | malformedProgramLine
deriving DecidableEq, Repr

/-- The image of a source file, one byte per valid line; the first malformed line aborts (30_encoding.md R60). -/
def assembleLines : List (List Char) → Except LoaderError (List Byte)
  | [] => .ok []
  | line :: rest =>
    match lineKind line with
    | .malformed => .error .malformedProgramLine
    | .skipped => assembleLines rest
    | .byte b =>
      match assembleLines rest with
      | .error e => .error e
      | .ok bs => .ok (b :: bs)

/-- Load a program given by its source lines, if a source was given at all. An error leaves the machine untouched: the core
never starts (60_exceptions.md R124). An image of more than 256 lines is handed to `load`: DESIGN CHOICE, log entry 14 (N9, D22). -/
def loadProgram (source : Option (List (List Char))) (s : State) : Except LoaderError (LoadStatus × State) :=
  match source with
  | none => .error .missingProgramArgument
  | some lines =>
    match assembleLines lines with
    | .error e => .error e
    | .ok image => .ok (load image s)

end Sys2Proof.Machine
end

