-- ==== Sys2Proof/Safety.lean ====
section
/-! DEFINITION. The terms claims are stated in: the machine's invariant, the conditions under which an instruction completes,
the safe runs, and the forms of a program line. -/

namespace Sys2Proof.Machine

/-- The byte is one of the three jump opcodes (40_execute_loop.md R78). -/
def isJumpByte (b : Byte) : Bool := b == 0x54#8 || b == 0x55#8 || b == 0x56#8

/-- What holds of the machine from `load` on: memory in its canonical form, PC reachable (10_state.md R15), SP at its sentinel
(R17), FL one of four values (R19), CAUSE set exactly when RS = Faulted (R22), and every member of JO the fetchable address of
a jump with a register that exists (40_execute_loop.md R78). -/
structure Inv (s : State) : Prop where
  mem_wf : s.mem.wf = true
  pc_le : s.pc.toNat ≤ 256
  sp_sentinel : s.sp = 0xF4#8
  fl_one_hot : s.fl = 0x00#8 ∨ s.fl = 0x01#8 ∨ s.fl = 0x02#8 ∨ s.fl = 0x04#8
  cause_iff : s.cause.isSome = true ↔ s.rs = .faulted
  origins : ∀ p : Nat, s.jo.getLsbD p = true →
    p ≤ 253 ∧ isJumpByte (s.mem.cell p) = true ∧ (s.mem.cell (p + 1)).toNat ≤ 8

/-- MUL's exact product fits a register; every other instruction has no product (42_alu.md R90). -/
def productFits (i : Instr) (r : RegFile) : Bool :=
  match i with
  | .mul ra rb =>
    match regRead r ra, regRead r rb with
    | .ok u, .ok v => decide (u.toNat * v.toNat ≤ 255)
    | _, _ => true
  | _ => true

/-- The handler raises no fatal condition: its register indices exist and its product fits (60_exceptions.md R116 b, R118). -/
def noFatal (i : Instr) (r : RegFile) : Bool := i.wf && productFits i r

/-- The instruction at PC, as the loop decodes it (40_execute_loop.md R67, R68). -/
def instrAtPc (s : State) : Except DecodeError Instr :=
  decode (s.mem.cell s.pc.toNat) (s.mem.cell (s.pc.toNat + 1)) (s.mem.cell (s.pc.toNat + 2))

/-- What 70_reset_and_hazards.md R140 and R143 ask of the step about to be made. -/
def stepSafe (s : State) : Bool :=
  decide (s.pc.toNat ≤ 253) &&
    match instrAtPc s with
    | .ok i => noFatal i s.regs
    | .error _ => false

/-- White space only, or nothing (log entry 14). -/
def allBlank (cs : List Char) : Prop := ∀ c ∈ cs, isBlank c = true

/-- White space only, or a comment after white space or none (30_encoding.md R60; for the white space before a comment that stands
alone on its line, DESIGN CHOICE, log entry 20). -/
def blankOrComment (cs : List Char) : Prop :=
  allBlank cs ∨ ∃ w rest : List Char, allBlank w ∧ cs = w ++ '#' :: rest

end Sys2Proof.Machine
end

