-- ==== Sys2Proof/Certificates/Slice0/Obligations.lean ====
section
/-! DEFINITION. The statements about the model, taken from the numbered rules of spec/ file by file. A next state is written out
as the state before it with the named fields changed, so that every such equation is the frame too. "p in JO" is `joMem s.jo s.pc`;
JO with p added is `s.jo ||| (1#256 <<< p)`, the vector with bit p set (10_state.md R20). -/

open Sys2Proof Sys2Proof.Machine

/-! ## Encoding and decoding -/

/-- Decoding an encoded instruction gives it back, whatever bytes follow it in memory: every instruction, every operand value
(30_encoding.md sections 1, 4 and 6). -/
def Obligations.DecodeOfEncodeIsTheInstruction : Prop :=
  ∀ (i : Instr) (x y : Byte) (rest : List Byte), decodeBytes (encode i ++ x :: y :: rest) = .ok i

/-- 30_encoding.md R45: an instruction is its opcode byte and AA operand bytes, its length is the default increment AA + 1, its
format is F0, F1 or F2 with the operands of the table's rows, the loop reads the two bytes after the opcode whatever the format, and
the bytes after the instruction may have any value. -/
def Obligations.DecodedLengthIsOperandCountPlusOne : Prop :=
  (∀ o : Op, (decodeFields (opcodeOf o)).operandCount =
    match o with
    | .hlt => 0#2
    | .prn | .jmp | .jeq | .jne => 1#2
    | .ldi | .mul | .cmp => 2#2) ∧
  (∀ (o : Op) (a b : Byte), decode (opcodeOf o) a b = .ok
    (match o with
    | .hlt => .hlt
    | .prn => .prn a
    | .jmp => .jmp a
    | .jeq => .jeq a
    | .jne => .jne a
    | .ldi => .ldi a b
    | .mul => .mul a b
    | .cmp => .cmp a b)) ∧
  (∀ s : State, s.pc.toNat ≤ 253 → fetch s =
    .ok (s.mem.cell s.pc.toNat, s.mem.cell (s.pc.toNat + 1), s.mem.cell (s.pc.toNat + 2))) ∧
  ∀ (op a b : Byte) (i : Instr), decode op a b = .ok i →
    (encode i).length = (decodeFields op).operandCount.toNat + 1 ∧
    (encode i).length = (increment op).toNat ∧
    encode i = [op, a, b].take (encode i).length ∧
    ∀ a' b' : Byte, encode i = [op, a', b'].take (encode i).length → decode op a' b' = .ok i

/-- 30_encoding.md R55: an exact match of all eight bits: a byte selects a handler when it is that handler's key, two handlers
have two keys, and every byte that is no key is refused by name, whatever follows it. -/
def Obligations.DecodingIsAnExactMatchOfTheKeys : Prop :=
  (∀ (op : Byte) (o : Op), dispatch op = some o ↔ op = opcodeOf o) ∧
  (∀ o o' : Op, opcodeOf o = opcodeOf o' → o = o') ∧
  ∀ op a b : Byte, decode op a b = .error (.unknownOpcode op) ↔ ∀ o : Op, op ≠ opcodeOf o

/-- 30_encoding.md R51: exactly eight keys, unique, one per instruction, in the document's order. -/
def Obligations.DispatchTableHasEightUniqueKeys : Prop :=
  dispatchTable.map Prod.snd = [.ldi, .prn, .mul, .cmp, .jmp, .jeq, .jne, .hlt] ∧
  (dispatchTable.map Prod.fst).Nodup ∧
  ∀ op : Byte, (dispatch op).isSome = true ↔ op ∈ dispatchTable.map Prod.fst

/-- The constraints the document puts on the opcode bytes (30_encoding.md section 4, an inference the spec marks as its own): bits
7..6 are the operands used, bit 4 is 1 for the three jumps alone, bit 5 is 1 for multiply. -/
def Obligations.OpcodeBytesMeetTheLayout : Prop :=
  ∀ o : Op,
    (opcodeOf o).toNat / 64 = (encode (o.instr 0#8 0#8)).length - 1 ∧
    ((opcodeOf o).getLsbD 4 = true ↔ o = .jmp ∨ o = .jeq ∨ o = .jne) ∧
    (o = .mul → (opcodeOf o).getLsbD 5 = true)

/-- 30_encoding.md R47: the five outputs of the decoder for every byte, total; a byte with bits 7..6 = 11 gives 3 and 4. -/
def Obligations.DecoderOutputsAreTheFields : Prop :=
  ∀ op : Byte,
    (decodeFields op).operandCount.toNat = op.toNat / 64 ∧
    (decodeFields op).isAlu = decide (op.toNat / 32 % 2 = 1) ∧
    (decodeFields op).isPcSetting = decide (op.toNat / 16 % 2 = 1) ∧
    (decodeFields op).ident.toNat = op.toNat % 16 ∧
    (decodeFields op).increment.toNat = op.toNat / 64 + 1 ∧
    (192 ≤ op.toNat →
      (decodeFields op).operandCount.toNat = 3 ∧ (decodeFields op).increment.toNat = 4)

/-- The words of the spec's syntax table (30_encoding.md section 6; the opcode numbers are the spec's passage from general
knowledge G1, log entry 1), with every operand value, decode to the instructions they stand for. -/
def Obligations.SyntaxTableWordsDecode : Prop :=
  ∀ a b x y : Byte,
    decodeBytes [0x82#8, a, b] = .ok (.ldi a b) ∧ decodeBytes [0x47#8, a, x] = .ok (.prn a) ∧
    decodeBytes [0xA2#8, a, b] = .ok (.mul a b) ∧ decodeBytes [0xA7#8, a, b] = .ok (.cmp a b) ∧
    decodeBytes [0x54#8, a, x] = .ok (.jmp a) ∧ decodeBytes [0x55#8, a, x] = .ok (.jeq a) ∧
    decodeBytes [0x56#8, a, x] = .ok (.jne a) ∧ decodeBytes [0x01#8, x, y] = .ok .hlt ∧
    decodeBytes [0x00#8, a, b] = .error (.unknownOpcode 0x00#8)

/-! ## Registers, memory, reset and load -/

/-- 10_state.md R12: indices 0..8 succeed, 9..255 raise OutOfRange, on every read and write; a failed access reads and writes
nothing. -/
def Obligations.RegisterAccessIsRangeChecked : Prop :=
  ∀ (r : RegFile) (i : RegIndex) (v : Byte),
    (∀ h : i.toNat < 9,
      regRead r i = .ok (r[i.toNat]'h) ∧
      ∃ r' : RegFile, regWrite r i v = .ok r' ∧ regRead r' i = .ok v ∧
        ∀ j : RegIndex, j ≠ i → regRead r' j = regRead r j) ∧
    (9 ≤ i.toNat → regRead r i = .error .outOfRange ∧ regWrite r i v = .error .outOfRange)

/-- A memory read is bounds-checked and its address is not reduced modulo 256; a fetch succeeds exactly when PC is at most 253
(20_memory.md section 1, decision D7). -/
def Obligations.MemoryReadIsBoundsChecked : Prop :=
  (∀ (m : Memory) (a : Nat), memRead m a = if a ≤ 255 then .ok (m.cell a) else .error .outOfRange) ∧
  ∀ s : State, fetch s =
    if s.pc.toNat ≤ 253 then
      .ok (s.mem.cell s.pc.toNat, s.mem.cell (s.pc.toNat + 1), s.mem.cell (s.pc.toNat + 2))
    else .error .outOfRange

/-- The reset table (10_state.md section 8, with the spec's decisions D4, D5, D9, D10; log entries 3, 4, 5). -/
def Obligations.ResetStateIsTheTable : Prop :=
  State.reset.pc = 0#9 ∧ State.reset.rs = .running ∧ State.reset.sp = 0xF4#8 ∧ State.reset.fl = 0x00#8 ∧
  State.reset.jo = 0#256 ∧ State.reset.cause = none ∧ State.reset.out = [] ∧
  (∀ (i : Nat) (h : i < 9), State.reset.regs[i]'h = 0x00#8) ∧ ∀ a : Nat, State.reset.mem.cell a = 0x00#8

/-- 70_reset_and_hazards.md R136: execution begins at address 0 with RS = Running, after reset and after every load, whatever the
image; the host cannot choose another entry. -/
def Obligations.ExecutionBeginsAtAddressZero : Prop :=
  (State.reset.pc = 0#9 ∧ State.reset.rs = .running) ∧
  ∀ (image : List Byte) (s : State), image.length ≤ 256 →
    (load image s).2.pc = 0#9 ∧ (load image s).2.rs = .running

/-- `load` of an image of up to 256 bytes: memory holds the image from address 0 and 0x00 above it, in canonical form, and
everything else is as at reset (50_interfaces.md section 3, decisions D10 and D11). -/
def Obligations.LoadHoldsTheImageAndResetsTheRest : Prop :=
  ∀ (image : List Byte) (s : State), image.length ≤ 256 →
    ∃ m : Memory, load image s = (.loaded, { State.reset with mem := m }) ∧ m.wf = true ∧
      ∀ a : Nat, m.cell a = image.getD a 0x00#8

/-- `load` of an image of more than 256 bytes fails and leaves the state as it was (50_interfaces.md section 3, decision D10). -/
def Obligations.OversizedImageIsRefused : Prop :=
  ∀ (image : List Byte) (s : State), 256 < image.length → load image s = (.refused, s)

/-- 70_reset_and_hazards.md R137: the same image gives the same sequence of states and the same output, whatever the machine had
done before. -/
def Obligations.SameImageGivesTheSameRun : Prop :=
  ∀ (image : List Byte) (s s' : State), image.length ≤ 256 →
    ∀ n : Nat, runFor n (load image s).2 = runFor n (load image s').2 ∧
      (run (load image s).2).1 = (run (load image s').2).1 ∧
      outText (run (load image s).2).2.out = outText (run (load image s').2).2.out

/-! ## The eight instructions -/

/-- 41_load_print.md R85, LDI whole. -/
def Obligations.LdiLoadsTheImmediate : Prop :=
  ∀ (s : State) (n imm : Byte), s.pc.toNat ≤ 253 →
    encode (.ldi n imm) = [0x82#8, n, imm] ∧
    (∀ h : n.toNat < 9, regRead (s.regs.set n.toNat imm h) n = .ok imm) ∧
    (∀ h : n.toNat < 9, joMem s.jo s.pc = false →
      exec (.ldi n imm) s =
        .next { s with regs := s.regs.set n.toNat imm h, pc := BitVec.ofNat 9 (s.pc.toNat + 3) }) ∧
    (∀ h : n.toNat < 9, joMem s.jo s.pc = true →
      exec (.ldi n imm) s = .next { s with regs := s.regs.set n.toNat imm h, rs := .halted }) ∧
    (9 ≤ n.toNat → exec (.ldi n imm) s = .next { s with rs := .faulted, cause := some .outOfRange })

/-- PRN: the register's value is appended to OUT (41_load_print.md, PRN Rn). -/
def Obligations.PrnAppendsTheRegister : Prop :=
  ∀ (s : State) (n : Byte), s.pc.toNat ≤ 253 →
    encode (.prn n) = [0x47#8, n] ∧
    (∀ h : n.toNat < 9, joMem s.jo s.pc = false →
      exec (.prn n) s =
        .next { s with out := s.out ++ [s.regs[n.toNat]'h], pc := BitVec.ofNat 9 (s.pc.toNat + 2) }) ∧
    (∀ h : n.toNat < 9, joMem s.jo s.pc = true →
      exec (.prn n) s = .next { s with out := s.out ++ [s.regs[n.toNat]'h], rs := .halted }) ∧
    (9 ≤ n.toNat → exec (.prn n) s = .next { s with rs := .faulted, cause := some .outOfRange })

/-- MUL: the exact product of the two values from before the step, also when a = b; a product above 255 raises
ResultOutOfRange (the spec's decision D3; log entry 2), after the index checks (42_alu.md, MUL Ra, Rb). -/
def Obligations.MulStoresTheExactProduct : Prop :=
  ∀ (s : State) (a b : Byte), s.pc.toNat ≤ 253 →
    encode (.mul a b) = [0xA2#8, a, b] ∧
    (∀ (ha : a.toNat < 9) (hb : b.toNat < 9),
      (s.regs[a.toNat]'ha).toNat * (s.regs[b.toNat]'hb).toNat ≤ 255 →
      ∃ v : Byte, v.toNat = (s.regs[a.toNat]'ha).toNat * (s.regs[b.toNat]'hb).toNat ∧
        (joMem s.jo s.pc = false → exec (.mul a b) s =
          .next { s with regs := s.regs.set a.toNat v ha, pc := BitVec.ofNat 9 (s.pc.toNat + 3) }) ∧
        (joMem s.jo s.pc = true → exec (.mul a b) s =
          .next { s with regs := s.regs.set a.toNat v ha, rs := .halted })) ∧
    (∀ (ha : a.toNat < 9) (hb : b.toNat < 9),
      255 < (s.regs[a.toNat]'ha).toNat * (s.regs[b.toNat]'hb).toNat →
      exec (.mul a b) s = .next { s with rs := .faulted, cause := some .resultOutOfRange }) ∧
    (9 ≤ a.toNat ∨ 9 ≤ b.toNat → exec (.mul a b) s = .next { s with rs := .faulted, cause := some .outOfRange })

/-- CMP: all of FL is written, E, L or G by the unsigned order (42_alu.md, CMP Ra, Rb; decision D19; the bit positions are the
spec's passage from general knowledge G3, log entry 4). -/
def Obligations.CmpWritesOneFlag : Prop :=
  ∀ (s : State) (a b : Byte), s.pc.toNat ≤ 253 →
    encode (.cmp a b) = [0xA7#8, a, b] ∧
    (∀ (ha : a.toNat < 9) (hb : b.toNat < 9),
      ∃ f : Byte,
        ((s.regs[a.toNat]'ha).toNat = (s.regs[b.toNat]'hb).toNat → f = 0x01#8) ∧
        ((s.regs[a.toNat]'ha).toNat < (s.regs[b.toNat]'hb).toNat → f = 0x04#8) ∧
        ((s.regs[b.toNat]'hb).toNat < (s.regs[a.toNat]'ha).toNat → f = 0x02#8) ∧
        (joMem s.jo s.pc = false → exec (.cmp a b) s =
          .next { s with fl := f, pc := BitVec.ofNat 9 (s.pc.toNat + 3) }) ∧
        (joMem s.jo s.pc = true → exec (.cmp a b) s = .next { s with fl := f, rs := .halted })) ∧
    (9 ≤ a.toNat ∨ 9 ≤ b.toNat → exec (.cmp a b) s = .next { s with rs := .faulted, cause := some .outOfRange })

/-- 43_jumps_halt.md R95, JMP whole: with the two things that can become of the target at the next step. -/
def Obligations.JmpRedirectsOnce : Prop :=
  ∀ (s : State) (n : Byte), s.pc.toNat ≤ 253 →
    encode (.jmp n) = [0x54#8, n] ∧
    (∀ h : n.toNat < 9, joMem s.jo s.pc = false →
      ∃ t : State,
        t = { s with jo := s.jo ||| (1#256 <<< s.pc.toNat), pc := BitVec.ofNat 9 (s.regs[n.toNat]'h).toNat } ∧
        exec (.jmp n) s = .next t ∧
        (s.rs = .running → 254 ≤ (s.regs[n.toNat]'h).toNat →
          step t = .next { t with rs := .faulted, cause := some .outOfRange }) ∧
        (s.rs = .running → (s.regs[n.toNat]'h).toNat ≤ 253 →
          dispatch (s.mem.cell (s.regs[n.toNat]'h).toNat) = none →
          step t = .next { t with rs := .faulted, cause := some .unknownOpcode })) ∧
    (∀ _ : n.toNat < 9, joMem s.jo s.pc = true → exec (.jmp n) s = .next { s with rs := .halted }) ∧
    (9 ≤ n.toNat → exec (.jmp n) s = .next { s with rs := .faulted, cause := some .outOfRange })

/-- JEQ: it jumps exactly when E is set; the index is checked in both cases (43_jumps_halt.md, JEQ Rn; decision D25, log
entry 18). -/
def Obligations.JeqRedirectsWhenEqual : Prop :=
  ∀ (s : State) (n : Byte), s.pc.toNat ≤ 253 →
    encode (.jeq n) = [0x55#8, n] ∧
    (∀ h : n.toNat < 9, joMem s.jo s.pc = false → s.fl.getLsbD 0 = true →
      exec (.jeq n) s = .next { s with
        jo := s.jo ||| (1#256 <<< s.pc.toNat), pc := BitVec.ofNat 9 (s.regs[n.toNat]'h).toNat }) ∧
    (∀ _ : n.toNat < 9, joMem s.jo s.pc = false → s.fl.getLsbD 0 = false →
      exec (.jeq n) s = .next { s with pc := BitVec.ofNat 9 (s.pc.toNat + 2) }) ∧
    (∀ _ : n.toNat < 9, joMem s.jo s.pc = true → exec (.jeq n) s = .next { s with rs := .halted }) ∧
    (9 ≤ n.toNat → exec (.jeq n) s = .next { s with rs := .faulted, cause := some .outOfRange })

/-- JNE: it jumps exactly when E is clear, so also before any compare; the index is checked in both cases (43_jumps_halt.md,
JNE Rn; decision D25, log entry 18). -/
def Obligations.JneRedirectsWhenNotEqual : Prop :=
  ∀ (s : State) (n : Byte), s.pc.toNat ≤ 253 →
    encode (.jne n) = [0x56#8, n] ∧
    (∀ h : n.toNat < 9, joMem s.jo s.pc = false → s.fl.getLsbD 0 = false →
      exec (.jne n) s = .next { s with
        jo := s.jo ||| (1#256 <<< s.pc.toNat), pc := BitVec.ofNat 9 (s.regs[n.toNat]'h).toNat }) ∧
    (∀ _ : n.toNat < 9, joMem s.jo s.pc = false → s.fl.getLsbD 0 = true →
      exec (.jne n) s = .next { s with pc := BitVec.ofNat 9 (s.pc.toNat + 2) }) ∧
    (∀ _ : n.toNat < 9, joMem s.jo s.pc = true → exec (.jne n) s = .next { s with rs := .halted }) ∧
    (9 ≤ n.toNat → exec (.jne n) s = .next { s with rs := .faulted, cause := some .outOfRange })

/-- 43_jumps_halt.md R98, HLT whole: its effect in every state; a step that fetches it halts whatever the two bytes after it are,
and raises OutOfRange at 254 or 255; after it there is no step; and only HLT and the jump-origin test end a run successfully. -/
def Obligations.HltHaltsTheMachine : Prop :=
  encode .hlt = [0x01#8] ∧
  (∀ s : State, exec .hlt s = .next { s with rs := .halted }) ∧
  (∀ s : State, s.rs = .running → s.pc.toNat ≤ 253 → s.mem.cell s.pc.toNat = 0x01#8 →
    step s = .next { s with rs := .halted }) ∧
  (∀ s : State, s.rs = .running → 254 ≤ s.pc.toNat →
    step s = .next { s with rs := .faulted, cause := some .outOfRange }) ∧
  (∀ s : State, s.rs = .halted → step s = .fault .alreadyHalted) ∧
  ∀ s t : State, step s = .next t → t.rs = .halted →
    instrAtPc s = .ok .hlt ∨ joMem s.jo s.pc = true

/-! ## The step and the PC-update policy -/

/-- A step runs the decoded instruction: when the three bytes at PC decode to an instruction, whatever its operands, the step is
that instruction's execution and nothing else is added around it (40_execute_loop.md section 1). -/
def Obligations.StepRunsTheDecodedInstruction : Prop :=
  ∀ (s : State) (i : Instr), s.rs = .running → s.pc.toNat ≤ 253 →
    decode (s.mem.cell s.pc.toNat) (s.mem.cell (s.pc.toNat + 1)) (s.mem.cell (s.pc.toNat + 2)) = .ok i →
    step s = exec i s

/-- Where memory holds an instruction's encoding at PC, the step executes that instruction (30_encoding.md section 1,
40_execute_loop.md section 1). -/
def Obligations.StepRunsTheEncodedInstruction : Prop :=
  ∀ (s : State) (i : Instr), s.rs = .running → s.pc.toNat ≤ 253 →
    (∀ k : Nat, k < (encode i).length → (encode i)[k]? = some (s.mem.cell (s.pc.toNat + k))) →
    step s = exec i s

/-- A table word placed where the step fetches is what the next step runs (the model's placing of a program, log entry 7;
40_execute_loop.md section 1). -/
def Obligations.PlacedWordIsRunNext : Prop :=
  ∀ (s : State) (nbits w : Nat) (i : Instr), s.mem.wf = true → s.rs = .running → s.pc.toNat ≤ 253 →
    decodeTableWord nbits w = some i →
    step (s.withFetchWord nbits w) = exec i (s.withFetchWord nbits w)

/-- Step 4: the halt signal, or a PC already in JO whatever the result, stops the machine with PC and JO as they are
(40_execute_loop.md section 1, step 4; decisions D6 and D24). -/
def Obligations.StopTestHaltsInPlace : Prop :=
  ∀ (s : State) (op : Byte) (result : HandlerResult), result = .halt ∨ joMem s.jo s.pc = true →
    pcPolicy op result s = { s with rs := .halted }

/-- 40_execute_loop.md R71: the current PC is recorded in JO, PC takes the target, and the target is not checked in this step: the
next step faults at 254 or 255, or where no opcode stands. -/
def Obligations.RedirectRecordsTheOrigin : Prop :=
  ∀ (s : State) (op t : Byte), s.pc.toNat ≤ 253 → joMem s.jo s.pc = false →
    ∃ u : State, pcPolicy op (.redirect t) s = u ∧
      u = { s with jo := u.jo, pc := BitVec.ofNat 9 t.toNat } ∧
      (∀ q : PcWord, joMem u.jo q = true ↔ joMem s.jo q = true ∨ q = s.pc) ∧
      (s.rs = .running → 254 ≤ t.toNat → step u = .next { u with rs := .faulted, cause := some .outOfRange }) ∧
      (s.rs = .running → t.toNat ≤ 253 → dispatch (s.mem.cell t.toNat) = none →
        step u = .next { u with rs := .faulted, cause := some .unknownOpcode })

/-- 40_execute_loop.md R72: with no redirect PC advances by the default increment of the opcode, 1, 2 or 3, not reduced modulo
256, to at most 256. -/
def Obligations.DefaultAdvanceIsTheIncrement : Prop :=
  ∀ (s : State) (o : Op), s.pc.toNat ≤ 253 → joMem s.jo s.pc = false →
    ∃ u : State, pcPolicy (opcodeOf o) .noRedirect s = u ∧ u = { s with pc := u.pc } ∧
      u.pc.toNat = s.pc.toNat + ((opcodeOf o).toNat / 64 + 1) ∧
      ((opcodeOf o).toNat / 64 + 1 =
        match o with
        | .hlt => 1
        | .prn | .jmp | .jeq | .jne => 2
        | .ldi | .mul | .cmp => 3) ∧
      u.pc.toNat ≤ 256

/-- 40_execute_loop.md R81: the table of how each instruction leaves PC, JO and RS, for a step fetched at p with no fatal
condition, with p not in JO and with p in JO; and, in a state of the invariant, only the jump rows occur with p in JO. -/
def Obligations.NextPcTableOfEveryInstruction : Prop :=
  (∀ (s : State) (i : Instr), Inv s → joMem s.jo s.pc = true → instrAtPc s = .ok i →
    ∃ n : Byte, i = .jmp n ∨ i = .jeq n ∨ i = .jne n) ∧
  ∀ (s : State) (i : Instr), s.pc.toNat ≤ 253 → noFatal i s.regs = true →
    ∃ t : State, exec i s = .next t ∧
      (joMem s.jo s.pc = true → t.pc = s.pc ∧ t.jo = s.jo ∧ t.rs = .halted) ∧
      (joMem s.jo s.pc = false →
        match i with
        | .ldi _ _ | .mul _ _ | .cmp _ _ => t.pc.toNat = s.pc.toNat + 3 ∧ t.jo = s.jo ∧ t.rs = s.rs
        | .prn _ => t.pc.toNat = s.pc.toNat + 2 ∧ t.jo = s.jo ∧ t.rs = s.rs
        | .jmp n => ∃ h : n.toNat < 9, t.pc.toNat = (s.regs[n.toNat]'h).toNat ∧
            t.jo = s.jo ||| (1#256 <<< s.pc.toNat) ∧ t.rs = s.rs
        | .jeq n => ∃ h : n.toNat < 9, t.rs = s.rs ∧
            if s.fl.getLsbD 0 = true then
              t.pc.toNat = (s.regs[n.toNat]'h).toNat ∧ t.jo = s.jo ||| (1#256 <<< s.pc.toNat)
            else t.pc.toNat = s.pc.toNat + 2 ∧ t.jo = s.jo
        | .jne n => ∃ h : n.toNat < 9, t.rs = s.rs ∧
            if s.fl.getLsbD 0 = true then t.pc.toNat = s.pc.toNat + 2 ∧ t.jo = s.jo
            else t.pc.toNat = (s.regs[n.toNat]'h).toNat ∧ t.jo = s.jo ||| (1#256 <<< s.pc.toNat)
        | .hlt => t.pc = s.pc ∧ t.jo = s.jo ∧ t.rs = .halted)

/-- 40_execute_loop.md R77: on the second arrival at the address of a taken jump the machine halts whatever that jump would do,
and nothing else changes; a conditional jump that was not taken is not recorded. -/
def Obligations.RevisitedJumpHalts : Prop :=
  (∀ (s : State) (i : Instr) (n : Byte), s.rs = .running → s.pc.toNat ≤ 253 → joMem s.jo s.pc = true →
    instrAtPc s = .ok i → i = .jmp n ∨ i = .jeq n ∨ i = .jne n → n.toNat < 9 →
    step s = .next { s with rs := .halted }) ∧
  ∀ (s t : State) (i : Instr) (n : Byte), exec i s = .next t →
    (i = .jeq n ∧ s.fl.getLsbD 0 = false) ∨ (i = .jne n ∧ s.fl.getLsbD 0 = true) → t.jo = s.jo

/-- A redirect needs bit 4 of the opcode: a step whose opcode has it clear leaves JO alone, and its PC either stays or takes the
default increment (40_execute_loop.md section 2, an inference the spec marks as its own). -/
def Obligations.RedirectNeedsThePcSettingBit : Prop :=
  ∀ s t : State, step s = .next t → (decodeFields (s.mem.cell s.pc.toNat)).isPcSetting = false →
    t.jo = s.jo ∧
      (t.pc = s.pc ∨ t.pc.toNat = s.pc.toNat + (increment (s.mem.cell s.pc.toNat)).toNat)

/-- The step of a running machine is the priority multiplexer of the block decomposition: fatal, stop, redirect, advance, over
the ports' signals; the output is valid exactly for a PRN that completes, and beside a fatal line the register file and FL keep their
values (50_interfaces.md sections 1 and 2). Two points are the model's choices, log entry 17: the stop is read as keeping
the handler's effects (40_execute_loop.md R70 against R106's "nothing else changes"), and what signals carry where the spec gives
no value (a port that is off, data that is not written, the handler's result beside a fatal line). -/
def Obligations.StepIsTheBlockMultiplexer : Prop :=
  (∀ s : State, s.rs = .running → step s = .next (muxNext s)) ∧
  ∀ (fetchOor : Bool) (sel : Option Op) (a b : Byte) (r : RegFile) (fl : Byte),
    ((blockSignals fetchOor sel a b r fl).outValid.isSome = true ↔
      sel = some .prn ∧ (blockSignals fetchOor sel a b r fl).fatal = none) ∧
    ((blockSignals fetchOor sel a b r fl).fatal ≠ none →
      (blockSignals fetchOor sel a b r fl).regs = r ∧ (blockSignals fetchOor sel a b r fl).fl = fl)

/-! ## Fatal conditions and terminal states -/

/-- 60_exceptions.md R116: a step reports OutOfRange exactly when a fetch address exceeds 255, or the instruction at PC accesses
a register index of 9 or more; the indices accessed are those of the rule's list, for JEQ and JNE whether or not they jump. -/
def Obligations.OutOfRangeExactlyWhen : Prop :=
  (∀ a b : Byte,
    (Instr.ldi a b).registers = [a] ∧ (Instr.prn a).registers = [a] ∧ (Instr.mul a b).registers = [a, b] ∧
    (Instr.cmp a b).registers = [a, b] ∧ (Instr.jmp a).registers = [a] ∧ (Instr.jeq a).registers = [a] ∧
    (Instr.jne a).registers = [a] ∧ Instr.hlt.registers = []) ∧
  ∀ s : State, s.rs = .running →
    (step s = .next { s with rs := .faulted, cause := some .outOfRange } ↔
      254 ≤ s.pc.toNat ∨
      (s.pc.toNat ≤ 253 ∧ ∃ i : Instr, instrAtPc s = .ok i ∧ ∃ r ∈ i.registers, 9 ≤ r.toNat))

/-- A byte at a fetchable PC that is no key raises UnknownOpcode, with no other change and whatever follows it; this holds of the
fill 0x00 and of every byte with bits 7..6 = 11 (60_exceptions.md section 1, decision D8; 30_encoding.md section 5). -/
def Obligations.UnknownOpcodeFaults : Prop :=
  ∀ s : State, s.rs = .running → s.pc.toNat ≤ 253 →
    (s.mem.cell s.pc.toNat ∉ [0x82#8, 0x47#8, 0xA2#8, 0xA7#8, 0x54#8, 0x55#8, 0x56#8, 0x01#8] ↔
      step s = .next { s with rs := .faulted, cause := some .unknownOpcode }) ∧
    (s.mem.cell s.pc.toNat = 0x00#8 ∨ 192 ≤ (s.mem.cell s.pc.toNat).toNat →
      step s = .next { s with rs := .faulted, cause := some .unknownOpcode })

/-- The first condition that holds is the one reported: fetch, dispatch, register index, product; and a step that raises none
completes, with CAUSE as it was (60_exceptions.md section 1, decision D12). -/
def Obligations.FatalConditionsHaveThePriority : Prop :=
  ∀ s : State, s.rs = .running →
    (254 ≤ s.pc.toNat → step s = .next { s with rs := .faulted, cause := some .outOfRange }) ∧
    (s.pc.toNat ≤ 253 → dispatch (s.mem.cell s.pc.toNat) = none →
      step s = .next { s with rs := .faulted, cause := some .unknownOpcode }) ∧
    (∀ i : Instr, s.pc.toNat ≤ 253 → instrAtPc s = .ok i → i.wf = false →
      step s = .next { s with rs := .faulted, cause := some .outOfRange }) ∧
    (∀ i : Instr, s.pc.toNat ≤ 253 → instrAtPc s = .ok i → i.wf = true → productFits i s.regs = false →
      step s = .next { s with rs := .faulted, cause := some .resultOutOfRange }) ∧
    (∀ i : Instr, s.pc.toNat ≤ 253 → instrAtPc s = .ok i → i.wf = true → productFits i s.regs = true →
      ∃ t : State, step s = .next t ∧ t.rs ≠ .faulted ∧ t.cause = s.cause)

/-- 70_reset_and_hazards.md R143: a step does not fault exactly when the program keeps its obligations there, the fill 0x00
reached by falling through the program raises UnknownOpcode, and a run halts only by HLT or at a jump already recorded. The start
address at most 253 is the fetch's own condition. -/
def Obligations.ProgramObligationsAreExactlyNoFault : Prop :=
  (∀ s : State, s.rs = .running →
    ((s.pc.toNat ≤ 253 ∧ ∃ i : Instr, instrAtPc s = .ok i ∧ (∀ r ∈ i.registers, r.toNat ≤ 8) ∧
        ∀ a b : Byte, i = .mul a b → ∀ u v : Byte, regRead s.regs a = .ok u → regRead s.regs b = .ok v →
          u.toNat * v.toNat ≤ 255) ↔
      ∃ t : State, step s = .next t ∧ t.rs ≠ .faulted)) ∧
  (∀ s : State, s.rs = .running → s.pc.toNat ≤ 253 → s.mem.cell s.pc.toNat = 0x00#8 →
    step s = .next { s with rs := .faulted, cause := some .unknownOpcode }) ∧
  ∀ s t : State, step s = .next t → t.rs = .halted → instrAtPc s = .ok .hlt ∨ joMem s.jo s.pc = true

/-- A faulting step changes RS and CAUSE and nothing else: PC stays at the instruction, nothing is written or emitted
(60_exceptions.md section 1, decision D21). -/
def Obligations.FaultsArePrecise : Prop :=
  ∀ s t : State, step s = .next t → t.rs = .faulted →
    ∃ k : Fatal, t = { s with rs := .faulted, cause := some k }

/-- From Halted and from Faulted there is no step; the model says so with a named fault (40_execute_loop.md section 1, decision
D20; log entry 6). -/
def Obligations.TerminalStatesHaveNoStep : Prop :=
  ∀ s : State,
    (s.rs = .halted → step s = .fault .alreadyHalted) ∧ (s.rs = .faulted → step s = .fault .alreadyFaulted) ∧
    (s.rs = .running → ∃ t : State, step s = .next t)

/-- The codes of CAUSE on the status port (10_state.md section 7, decision D9). -/
def Obligations.CauseCodesAreTheTable : Prop :=
  causeCode none = 0 ∧ causeCode (some .outOfRange) = 1 ∧ causeCode (some .unknownOpcode) = 2 ∧
  causeCode (some .resultOutOfRange) = 3

/-! ## What an instruction leaves unchanged -/

/-- LDI and MUL: no register but the destination, no flag, no memory byte, and neither SP, JO nor OUT changes; CAUSE changes only
on a fatal condition, and then no register changes either (10_state.md sections 2 and 5, 41_load_print.md, 42_alu.md). -/
def Obligations.FrameOfTheRegisterWriters : Prop :=
  ∀ (s t : State) (i : Instr) (d x : Byte), i = .ldi d x ∨ i = .mul d x → exec i s = .next t →
    (∀ (j : Nat) (h : j < 9), j ≠ d.toNat → t.regs[j]'h = s.regs[j]'h) ∧
    t.fl = s.fl ∧ t.sp = s.sp ∧ t.jo = s.jo ∧ t.out = s.out ∧
    (∀ a : Nat, t.mem.cell a = s.mem.cell a) ∧
    (t.cause = s.cause ∨ (t.rs = .faulted ∧ t.regs = s.regs ∧ t.pc = s.pc))

/-- CMP: no register, no memory byte, and neither SP, JO nor OUT changes; CAUSE changes only on a fatal condition, and then FL
keeps its value (10_state.md section 5, 42_alu.md). -/
def Obligations.FrameOfCompare : Prop :=
  ∀ (s t : State) (a b : Byte), exec (.cmp a b) s = .next t →
    (∀ (j : Nat) (h : j < 9), t.regs[j]'h = s.regs[j]'h) ∧
    t.sp = s.sp ∧ t.jo = s.jo ∧ t.out = s.out ∧
    (∀ c : Nat, t.mem.cell c = s.mem.cell c) ∧
    (t.cause = s.cause ∨ (t.rs = .faulted ∧ t.fl = s.fl ∧ t.pc = s.pc))

/-- PRN: no register, no flag, no memory byte, and neither SP nor JO changes; CAUSE changes only on a fatal condition, and then
nothing is emitted (10_state.md section 7, 41_load_print.md). -/
def Obligations.FrameOfPrint : Prop :=
  ∀ (s t : State) (n : Byte), exec (.prn n) s = .next t →
    (∀ (j : Nat) (h : j < 9), t.regs[j]'h = s.regs[j]'h) ∧
    t.fl = s.fl ∧ t.sp = s.sp ∧ t.jo = s.jo ∧
    (∀ c : Nat, t.mem.cell c = s.mem.cell c) ∧
    (t.cause = s.cause ∨ (t.rs = .faulted ∧ t.out = s.out ∧ t.pc = s.pc))

/-- JMP, JEQ, JNE and HLT: no register, no flag, no memory byte, and neither SP nor OUT changes; JO loses no member; CAUSE
changes only on a fatal condition, and then JO and PC keep their value (43_jumps_halt.md). -/
def Obligations.FrameOfControlTransfer : Prop :=
  ∀ (s t : State) (i : Instr) (n : Byte), i = .jmp n ∨ i = .jeq n ∨ i = .jne n ∨ i = .hlt → exec i s = .next t →
    (∀ (j : Nat) (h : j < 9), t.regs[j]'h = s.regs[j]'h) ∧
    t.fl = s.fl ∧ t.sp = s.sp ∧ t.out = s.out ∧
    (∀ c : Nat, t.mem.cell c = s.mem.cell c) ∧
    (∀ q : PcWord, joMem s.jo q = true → joMem t.jo q = true) ∧
    (i = .hlt → t.jo = s.jo ∧ t.pc = s.pc) ∧
    (t.cause = s.cause ∨ (t.rs = .faulted ∧ t.jo = s.jo ∧ t.pc = s.pc))

/-- No step writes memory or SP (20_memory.md section 1, an inference the spec marks as its own; 10_state.md section 4). -/
def Obligations.StepKeepsMemoryAndStackPointer : Prop :=
  ∀ s t : State, step s = .next t → t.mem = s.mem ∧ (∀ a : Nat, t.mem.cell a = s.mem.cell a) ∧ t.sp = s.sp

/-- Only a completed CMP writes FL, and it leaves exactly one of E, L and G set and bits 7..3 clear; no other step changes FL
(10_state.md section 5, 42_alu.md). -/
def Obligations.OnlyCompareWritesTheFlags : Prop :=
  ∀ s t : State, step s = .next t →
    (t.fl ≠ s.fl → t.rs ≠ .faulted ∧ ∃ a b : Byte, instrAtPc s = .ok (.cmp a b)) ∧
    (∀ a b : Byte, instrAtPc s = .ok (.cmp a b) → t.rs ≠ .faulted → t.fl = 0x01#8 ∨ t.fl = 0x02#8 ∨ t.fl = 0x04#8)

/-- JO changes only when a jump is taken from a PC not yet in it: then that PC is added and no member is lost
(10_state.md section 6; decision D6). -/
def Obligations.OnlyATakenJumpGrowsTheOriginSet : Prop :=
  ∀ s t : State, step s = .next t →
    t.jo = s.jo ∨
    (s.pc.toNat ≤ 253 ∧ joMem s.jo s.pc = false ∧ isJumpByte (s.mem.cell s.pc.toNat) = true ∧
      (∀ q : PcWord, joMem t.jo q = true ↔ joMem s.jo q = true ∨ q = s.pc) ∧
      ∃ h : (s.mem.cell (s.pc.toNat + 1)).toNat < 9,
        t.pc.toNat = (s.regs[(s.mem.cell (s.pc.toNat + 1)).toNat]'h).toNat)

/-- PRN is the only output: a step leaves OUT as it was, or the instruction at PC is PRN and its register's value is appended
(10_state.md section 7, 50_interfaces.md section 2). -/
def Obligations.OnlyPrintWritesTheOutput : Prop :=
  ∀ s t : State, step s = .next t →
    t.out = s.out ∨
    ∃ (n : Byte) (h : n.toNat < 9), instrAtPc s = .ok (.prn n) ∧ t.out = s.out ++ [s.regs[n.toNat]'h]

/-! ## What no instruction can see -/

/-- L and G are never read: a machine with other values there, and the same E, makes the same step, and differs after it at most
in FL, which is either still the unread value or the same new one (42_alu.md, 43_jumps_halt.md). -/
def Obligations.LessAndGreaterAreNeverRead : Prop :=
  ∀ (s t : State) (f : Byte), f.getLsbD 0 = s.fl.getLsbD 0 → step s = .next t →
    ∃ g : Byte, step { s with fl := f } = .next { t with fl := g } ∧ ((g = f ∧ t.fl = s.fl) ∨ g = t.fl)

/-- SP and the output so far are never read: changing them changes nothing else (10_state.md sections 4 and 7). -/
def Obligations.StackPointerAndOutputAreNeverRead : Prop :=
  ∀ (s t : State) (v : Byte) (earlier : List Byte), step s = .next t →
    step { s with sp := v, out := earlier ++ s.out } = .next { t with sp := v, out := earlier ++ t.out }

/-- Only the bytes of the instruction matter: two memories that agree on them, at PC and on the default increment's bytes, make
the same step; the other fetched bytes and the rest of memory are ignored (30_encoding.md sections 1 and 3, 20_memory.md
section 2). -/
def Obligations.StepIgnoresBytesOutsideTheInstruction : Prop :=
  ∀ (s t : State) (m : Memory), step s = .next t →
    (∀ k : Nat, k < (increment (s.mem.cell s.pc.toNat)).toNat →
      m.cell (s.pc.toNat + k) = s.mem.cell (s.pc.toNat + k)) →
    step { s with mem := m } = .next { t with mem := m }

/-! ## Invariants and whole runs -/

/-- The machine's invariant holds at reset (10_state.md section 8). -/
def Obligations.InvariantHoldsAtReset : Prop := Inv State.reset

/-- Every load of an image that fits establishes the invariant (50_interfaces.md section 3). -/
def Obligations.LoadEstablishesTheInvariant : Prop :=
  ∀ (image : List Byte) (s : State), image.length ≤ 256 → Inv (load image s).2

/-- Every step keeps the invariant: canonical memory, PC at most 256, SP 0xF4, one of four FL values, CAUSE set exactly when
Faulted, and every member of JO the fetchable address of a jump whose register exists (10_state.md sections 3 to 7,
40_execute_loop.md section 2, an inference the spec marks as its own). -/
def Obligations.StepKeepsTheInvariant : Prop :=
  ∀ s t : State, Inv s → step s = .next t → Inv t

/-- In a state of the invariant, a step at a member of JO cannot fault and has no effect but to halt (40_execute_loop.md section
2, 60_exceptions.md section 1, inferences the spec marks as its own). -/
def Obligations.RevisitedOriginOnlyHalts : Prop :=
  ∀ s : State, Inv s → s.rs = .running → joMem s.jo s.pc = true → step s = .next { s with rs := .halted }

/-- Every run ends: from any running state, within 255 × 254 + 1 steps the machine is Halted or Faulted (40_execute_loop.md
section 2, an inference the spec marks as its own). -/
def Obligations.EveryRunEnds : Prop :=
  ∀ s : State, s.rs = .running → (runFor (255 * 254 + 1) s).rs ≠ .running

/-- After a load, at every point of a run, every member of JO is the fetchable address of a jump, and JO has at most 254 members
(40_execute_loop.md section 2 and 10_state.md section 6, inferences the spec marks as its own in R78, R79 and R20). -/
def Obligations.OriginSetHasAtMost254Members : Prop :=
  ∀ (image : List Byte) (s : State) (n : Nat), image.length ≤ 256 →
    (∀ p : Nat, (runFor n (load image s).2).jo.getLsbD p = true →
      p ≤ 253 ∧ isJumpByte ((runFor n (load image s).2).mem.cell p) = true) ∧
    ((List.range 256).filter fun p => (runFor n (load image s).2).jo.getLsbD p).length ≤ 254

/-- `run` performs no step on a terminal machine and reports the same outcome again; from any state it reports success exactly
when it ends Halted and failure with CAUSE exactly when it ends Faulted, and it always ends in one of the two
(50_interfaces.md section 3, decision D20; log entry 12). -/
def Obligations.RunReportsHowItEnded : Prop :=
  ∀ s : State,
    (s.rs = .halted → run s = (.success, s)) ∧ (s.rs = .faulted → run s = (.failure s.cause, s)) ∧
    ((run s).1 = .success ∧ (run s).2.rs = .halted ∨
      (run s).1 = .failure (run s).2.cause ∧ (run s).2.rs = .faulted) ∧
    run (run s).2 = run s

/-! ## Program text and output text -/

/-- The output text of a log is each value's decimal numeral, without sign or leading zeros, and a line feed, in order
(10_state.md section 7, decision D14; log entry 11). -/
def Obligations.OutputTextIsDecimalLines : Prop :=
  outText [] = [] ∧
  ∀ (v : Byte) (rest : List Byte), outText (v :: rest) = (Nat.repr v.toNat).toList ++ '\n' :: outText rest

/-- The program file (30_encoding.md section 6, 60_exceptions.md section 3). Every line is one of three: blank or comment only,
which is skipped; eight binary digits, most significant first, then nothing, white space, or white space and a comment, which is that
byte; or none of these, so also one with fewer or more than eight digits, which is malformed and aborts before the core runs. A line
of the second kind but for white space before its digits or none before its comment may be either the byte or malformed: free values
of the model (log entry 13). Four points are the model's choices, since N9 and D22 leave them to the Loader: which characters are
white space, that a line of more than eight digits is malformed, and that an image of more than 256 lines is handed to `load` (log
entry 14); and that a comment-only line may begin with white space (log entry 20). -/
def Obligations.ProgramLinesGiveTheImage : Prop :=
  (∀ c : Char, isBlank c = true ↔ c = ' ' ∨ c = '\t' ∨ c = '\r') ∧
  (∀ digits : List Char, digits.length = 8 → (∀ c ∈ digits, c = '0' ∨ c = '1') →
    ∃ b : Byte, digits = byteLine b ∧ ∀ k : Nat, k < 8 → (b.getLsbD (7 - k) = true ↔ digits[k]? = some '1')) ∧
  (∀ line : List Char, lineKind line = .skipped ↔ blankOrComment line) ∧
  (∀ (b : Byte) (tail : List Char), blankOrComment tail → tail.head? ≠ some '#' →
    lineKind (byteLine b ++ tail) = .byte b) ∧
  (∀ (b : Byte) (lead tail : List Char), allBlank lead → blankOrComment tail →
    lineKind (lead ++ byteLine b ++ tail) = .byte b ∨ lineKind (lead ++ byteLine b ++ tail) = .malformed) ∧
  (∀ line : List Char, ¬ blankOrComment line →
    (¬ ∃ (b : Byte) (lead tail : List Char), allBlank lead ∧ blankOrComment tail ∧ line = lead ++ byteLine b ++ tail) →
    lineKind line = .malformed) ∧
  (∀ (image : List Byte) (s : State), loadProgram (some (image.map byteLine)) s = .ok (load image s)) ∧
  (∀ (before after : List (List Char)) (line : List Char),
    (blankOrComment line → assembleLines (before ++ line :: after) = assembleLines (before ++ after)) ∧
    ∀ b : Byte, lineKind line = .byte b →
      assembleLines (before ++ line :: after) = assembleLines (before ++ byteLine b :: after)) ∧
  ∀ (lines : List (List Char)) (s : State), (∃ line ∈ lines, lineKind line = .malformed) →
    loadProgram (some lines) s = .error .malformedProgramLine
end

