-- ==== Sys2Proof/Laws/Decode.lean ====
section
/-! SUPPORT. The dispatch table and the decoder. -/

namespace Sys2Proof

theorem dispatch_opcodeOf (o : Op) : dispatch (opcodeOf o) = some o := by cases o <;> decide

/-- A byte dispatches to a handler exactly when it is that handler's key. -/
theorem dispatch_eq_some_iff {op : Byte} {o : Op} : dispatch op = some o ↔ op = opcodeOf o := by
  constructor
  · intro h
    simp only [dispatch, Option.map_eq_some_iff] at h
    obtain ⟨row, hrow, rfl⟩ := h
    have hmem := List.mem_of_find?_eq_some hrow
    have heq := List.find?_some hrow
    simp only [beq_iff_eq] at heq
    obtain ⟨o, -, rfl⟩ := List.mem_map.mp hmem
    exact heq.symm
  · rintro rfl
    exact dispatch_opcodeOf o

theorem dispatch_eq_none_iff {op : Byte} : dispatch op = none ↔ ∀ o, op ≠ opcodeOf o := by
  constructor
  · rintro h o rfl
    simp [dispatch_opcodeOf] at h
  · intro h
    cases hd : dispatch op with
    | none => rfl
    | some o => exact absurd (dispatch_eq_some_iff.mp hd) (h o)

theorem opcodeOf_injective {o o' : Op} (h : opcodeOf o = opcodeOf o') : o = o' := by
  have := dispatch_opcodeOf o
  rw [h, dispatch_opcodeOf] at this
  exact (Option.some.inj this).symm

/-- Decoding answers an instruction exactly for a key, and then that key's instruction of the two operand bytes. -/
theorem decode_eq_ok_iff {op a b : Byte} {i : Instr} :
    decode op a b = .ok i ↔ ∃ o, op = opcodeOf o ∧ i = o.instr a b := by
  unfold decode
  cases h : dispatch op with
  | none =>
    simp only [reduceCtorEq, false_iff, not_exists, not_and]
    intro o ho
    exact absurd ho (dispatch_eq_none_iff.mp h o)
  | some o =>
    simp only [Except.ok.injEq]
    constructor
    · rintro rfl
      exact ⟨o, dispatch_eq_some_iff.mp h, rfl⟩
    · rintro ⟨o', ho', rfl⟩
      rw [opcodeOf_injective ((dispatch_eq_some_iff.mp h).symm.trans ho')]

/-- Decoding refuses exactly the bytes that are no key, naming the byte. -/
theorem decode_eq_error_iff {op a b : Byte} {e : DecodeError} :
    decode op a b = .error e ↔ e = .unknownOpcode op ∧ ∀ o, op ≠ opcodeOf o := by
  unfold decode
  cases h : dispatch op with
  | none => simp [dispatch_eq_none_iff.mp h, eq_comm]
  | some o =>
    simp only [reduceCtorEq, false_iff, not_and, not_forall, Decidable.not_not]
    exact fun _ => ⟨o, dispatch_eq_some_iff.mp h⟩

@[simp] theorem Op.instr_op (o : Op) (a b : Byte) : (o.instr a b).op = o := by cases o <;> rfl

/-- The default increments of the eight keys: 1, 2 or 3 (30_encoding.md R48, R54). -/
theorem increment_opcodeOf (o : Op) : increment (opcodeOf o) =
    match o with
    | .ldi | .mul | .cmp => 3#3
    | .prn | .jmp | .jeq | .jne => 2#3
    | .hlt => 1#3 := by cases o <;> decide

theorem decode_opcodeOf (o : Op) (a b : Byte) : decode (opcodeOf o) a b = .ok (o.instr a b) :=
  decode_eq_ok_iff.mpr ⟨o, rfl, rfl⟩

end Sys2Proof
end

