-- ==== Sys2Proof/Laws/Memory.lean ====
section
/-! SUPPORT. Memory: the canonical form is kept, a read after a write, and equal memories are equal data. -/

namespace Sys2Proof.Machine

@[simp] theorem Memory.cell_nil (a : Nat) : Memory.cell [] a = Config.memFill := rfl

/-- Below the addresses it lists, a canonical memory reads as MEM_FILL. -/
theorem Memory.cell_of_lt {m : Memory} : ∀ {lo a : Nat}, Memory.wfFrom lo m = true → a < lo → m.cell a = Config.memFill := by
  induction m with
  | nil => intros; rfl
  | cons e rest ih =>
    obtain ⟨k, v⟩ := e
    intro lo a h ha
    simp only [Memory.wfFrom, Bool.and_eq_true, decide_eq_true_eq] at h
    have hk : k ≠ a := by omega
    simp only [Memory.cell, hk, if_false]
    exact ih h.2 (by omega)

theorem Memory.wfFrom_mono {m : Memory} {lo lo' : Nat} (h : Memory.wfFrom lo m = true) (hl : lo' ≤ lo) :
    Memory.wfFrom lo' m = true := by
  cases m with
  | nil => rfl
  | cons e rest =>
    obtain ⟨k, v⟩ := e
    simp only [Memory.wfFrom, Bool.and_eq_true, decide_eq_true_eq] at h ⊢
    exact ⟨⟨⟨by omega, h.1.1.2⟩, h.1.2⟩, h.2⟩

/-- Putting a byte keeps the canonical form. -/
theorem Memory.put_wfFrom {m : Memory} (a : Nat) (v : Byte) (ha : a < Config.memSize) :
    ∀ {lo : Nat}, Memory.wfFrom lo m = true → lo ≤ a → Memory.wfFrom lo (m.put a v) = true := by
  induction m with
  | nil =>
    intro lo _ hlo
    by_cases hv : v = Config.memFill <;> simp_all [Memory.put, Memory.wfFrom]
  | cons e rest ih =>
    obtain ⟨k, w⟩ := e
    intro lo h hlo
    have h0 := h
    simp only [Memory.wfFrom, Bool.and_eq_true, decide_eq_true_eq, bne_iff_ne] at h
    obtain ⟨⟨⟨h1, h2⟩, h3⟩, h4⟩ := h
    simp only [Memory.put]
    split
    · split
      · exact h0
      · rename_i hak hv
        simp only [Memory.wfFrom, Bool.and_eq_true, decide_eq_true_eq, bne_iff_ne]
        exact ⟨⟨⟨hlo, ha⟩, hv⟩, ⟨⟨⟨by omega, h2⟩, h3⟩, h4⟩⟩
    · split
      · rename_i hak
        split
        · exact Memory.wfFrom_mono h4 (by omega)
        · rename_i hv
          simp only [Memory.wfFrom, Bool.and_eq_true, decide_eq_true_eq, bne_iff_ne]
          exact ⟨⟨⟨hlo, ha⟩, hv⟩, hak ▸ h4⟩
      · simp only [Memory.wfFrom, Bool.and_eq_true, decide_eq_true_eq, bne_iff_ne]
        exact ⟨⟨⟨h1, h2⟩, h3⟩, ih h4 (by omega)⟩

theorem Memory.put_wf {m : Memory} {a : Nat} {v : Byte} (h : m.wf = true) (ha : a < 256) :
    (m.put a v).wf = true := Memory.put_wfFrom a v ha h (Nat.zero_le a)

theorem Memory.cell_put_from {m : Memory} (a b : Nat) (v : Byte) :
    ∀ {lo : Nat}, Memory.wfFrom lo m = true → (m.put a v).cell b = if b = a then v else m.cell b := by
  induction m with
  | nil =>
    intro lo _
    by_cases hb : b = a
    · by_cases hv : v = Config.memFill <;> simp [Memory.put, Memory.cell, hv, hb]
    · have hab : a ≠ b := fun h => hb h.symm
      by_cases hv : v = Config.memFill <;> simp [Memory.put, Memory.cell, hv, hb, hab]
  | cons e rest ih =>
    obtain ⟨k, w⟩ := e
    intro lo h
    simp only [Memory.wfFrom, Bool.and_eq_true, decide_eq_true_eq, bne_iff_ne] at h
    obtain ⟨⟨⟨h1, h2⟩, h3⟩, h4⟩ := h
    simp only [Memory.put]
    split
    · rename_i hak
      split
      · rename_i hv
        by_cases hb : b = a
        · have hkb : k ≠ b := by omega
          rw [if_pos hb, Memory.cell, if_neg hkb, Memory.cell_of_lt h4 (by omega), hv]
        · simp [hb]
      · by_cases hb : b = a
        · simp [Memory.cell, hb]
        · have hab : a ≠ b := fun h => hb h.symm
          simp [Memory.cell, hb, hab]
    · split
      · rename_i hak
        split
        · rename_i hv
          by_cases hb : b = a
          · rw [if_pos hb, Memory.cell_of_lt h4 (by omega), hv]
          · have hkb : k ≠ b := by omega
            simp [Memory.cell, hb, hkb]
        · by_cases hb : b = a
          · simp [Memory.cell, hb]
          · have hab : a ≠ b := fun h => hb h.symm
            have hkb : k ≠ b := by omega
            simp [Memory.cell, hb, hab, hkb]
      · rename_i hak hka
        by_cases hkb : k = b
        · have hb : b ≠ a := by omega
          simp [Memory.cell, hkb, hb]
        · simp only [Memory.cell, hkb, if_false]
          exact ih h4

/-- A read after a write: the written cell holds the byte, every other cell what it held. -/
theorem Memory.cell_put {m : Memory} (h : m.wf = true) (a b : Nat) (v : Byte) :
    (m.put a v).cell b = if b = a then v else m.cell b := Memory.cell_put_from a b v h

/-- The write primitive keeps the canonical form. -/
theorem memWrite_wf {m m' : Memory} {a : Nat} {v : Byte} (h : m.wf = true) (hw : memWrite m a v = .ok m') :
    m'.wf = true := by
  unfold memWrite at hw
  split at hw
  · rename_i ha
    cases hw
    exact Memory.put_wf h ha
  · cases hw

/-- Writing an image keeps the canonical form when it fits. -/
theorem writeImage_wf {image : List Byte} :
    ∀ {a : Nat} {m : Memory}, m.wf = true → a + image.length ≤ 256 → (writeImage a image m).wf = true := by
  induction image with
  | nil => intro a m h _; exact h
  | cons b rest ih =>
    intro a m h hl
    simp only [List.length_cons] at hl
    exact ih (Memory.put_wf h (by omega)) (by omega)

/-- A cell below the address an image is written from keeps its byte. -/
theorem writeImage_cell_of_lt {image : List Byte} :
    ∀ {a c : Nat} {m : Memory}, m.wf = true → a + image.length ≤ 256 → c < a →
      (writeImage a image m).cell c = m.cell c := by
  induction image with
  | nil => intros; rfl
  | cons b rest ih =>
    intro a c m h hl hc
    simp only [List.length_cons] at hl
    rw [writeImage, ih (Memory.put_wf h (by omega)) (by omega) (by omega), Memory.cell_put h, if_neg (by omega)]

/-- Two canonical memories that read alike everywhere are equal data. -/
theorem Memory.eq_of_cell_from {m m' : Memory} : ∀ {lo : Nat}, Memory.wfFrom lo m = true → Memory.wfFrom lo m' = true →
    (∀ a, m.cell a = m'.cell a) → m = m' := by
  induction m generalizing m' with
  | nil =>
    intro lo _ h' hc
    cases m' with
    | nil => rfl
    | cons e rest =>
      obtain ⟨k, v⟩ := e
      simp only [Memory.wfFrom, Bool.and_eq_true, decide_eq_true_eq, bne_iff_ne] at h'
      have := hc k
      simp [Memory.cell] at this
      exact absurd this.symm h'.1.2
  | cons e rest ih =>
    obtain ⟨k, v⟩ := e
    intro lo h h' hc
    simp only [Memory.wfFrom, Bool.and_eq_true, decide_eq_true_eq, bne_iff_ne] at h
    cases m' with
    | nil =>
      have := hc k
      simp [Memory.cell] at this
      exact absurd this h.1.2
    | cons e' rest' =>
      obtain ⟨k', v'⟩ := e'
      simp only [Memory.wfFrom, Bool.and_eq_true, decide_eq_true_eq, bne_iff_ne] at h'
      have hk : k = k' := by
        rcases Nat.lt_trichotomy k k' with hlt | heq | hgt
        · have := hc k
          have hne : k' ≠ k := by omega
          simp only [Memory.cell, if_true, hne, if_false] at this
          rw [Memory.cell_of_lt h'.2 (by omega)] at this
          exact absurd this h.1.2
        · exact heq
        · have := hc k'
          have hne : k ≠ k' := by omega
          simp only [Memory.cell, if_true, hne, if_false] at this
          rw [Memory.cell_of_lt h.2 (by omega)] at this
          exact absurd this.symm h'.1.2
      subst hk
      have hv : v = v' := by simpa [Memory.cell] using hc k
      subst hv
      have hrest : rest = rest' := by
        refine ih h.2 h'.2 fun a => ?_
        by_cases hka : k = a
        · rw [Memory.cell_of_lt h.2 (by omega), Memory.cell_of_lt h'.2 (by omega)]
        · simpa [Memory.cell, hka] using hc a
      rw [hrest]

theorem Memory.eq_of_cell {m m' : Memory} (h : m.wf = true) (h' : m'.wf = true) (hc : ∀ a, m.cell a = m'.cell a) :
    m = m' := Memory.eq_of_cell_from h h' hc

/-- Reset memory is canonical. -/
theorem reset_mem_wf : State.reset.mem.wf = true := rfl

/-- Placing an instruction at a fetchable PC keeps the canonical form. -/
theorem withFetchWord_wf {s : State} (h : s.mem.wf = true) (hp : s.pc.toNat ≤ 253) (nbits w : Nat) :
    (s.withFetchWord nbits w).mem.wf = true :=
  Memory.put_wf (Memory.put_wf (Memory.put_wf h (by omega)) (by omega)) (by omega)

end Sys2Proof.Machine
end

