-- ==== Sys2Proof/Laws/Operands.lean ====
section
/-! SUPPORT. The register file's ports, the immediate form and the flag computation. -/

namespace Sys2Proof.Machine

theorem regRead_of_lt {r : RegFile} {i : RegIndex} (h : i.toNat < 9) : regRead r i = .ok (r[i.toNat]'h) := dif_pos h

theorem regRead_of_ge {r : RegFile} {i : RegIndex} (h : 9 ≤ i.toNat) : regRead r i = .error .outOfRange :=
  dif_neg (Nat.not_lt.mpr h)

theorem regWrite_of_lt {r : RegFile} {i : RegIndex} {v : Byte} (h : i.toNat < 9) :
    regWrite r i v = .ok (r.set i.toNat v h) := dif_pos h

theorem regWrite_of_ge {r : RegFile} {i : RegIndex} {v : Byte} (h : 9 ≤ i.toNat) :
    regWrite r i v = .error .outOfRange := dif_neg (Nat.not_lt.mpr h)

/-- What a read can answer. -/
theorem regRead_cases (r : RegFile) (i : RegIndex) :
    (∃ h : i.toNat < 9, regRead r i = .ok (r[i.toNat]'h)) ∨ (9 ≤ i.toNat ∧ regRead r i = .error .outOfRange) := by
  rcases Nat.lt_or_ge i.toNat 9 with h | h
  · exact .inl ⟨h, regRead_of_lt h⟩
  · exact .inr ⟨h, regRead_of_ge h⟩

/-- What a write can answer. -/
theorem regWrite_cases (r : RegFile) (i : RegIndex) (v : Byte) :
    (∃ h : i.toNat < 9, regWrite r i v = .ok (r.set i.toNat v h)) ∨
      (9 ≤ i.toNat ∧ regWrite r i v = .error .outOfRange) := by
  rcases Nat.lt_or_ge i.toNat 9 with h | h
  · exact .inl ⟨h, regWrite_of_lt h⟩
  · exact .inr ⟨h, regWrite_of_ge h⟩

@[simp] theorem immediate_eq (b : Byte) : immediate b = b := by simp [immediate]

theorem compareFlags_cases (u v : Byte) :
    (u.toNat = v.toNat ∧ compareFlags u v = 0x01#8) ∨ (u.toNat < v.toNat ∧ compareFlags u v = 0x04#8) ∨
      (v.toNat < u.toNat ∧ compareFlags u v = 0x02#8) := by
  unfold compareFlags flagEqual flagLess flagGreater
  rcases Nat.lt_trichotomy u.toNat v.toNat with h | h | h
  · exact .inr (.inl ⟨h, by rw [if_neg (by omega), if_pos h]⟩)
  · exact .inl ⟨h, if_pos h⟩
  · exact .inr (.inr ⟨h, by rw [if_neg (by omega), if_neg (by omega)]⟩)

end Sys2Proof.Machine
end

