-- ==== Sys2Proof/Laws/State.lean ====
section
/-! SUPPORT. One lemma per field per update of State, so that no proof unfolds a record update. -/

namespace Sys2Proof.Machine

@[simp] theorem State.withMem_mem (s : State) (v : Memory) : (s.withMem v).mem = v := rfl
@[simp] theorem State.withMem_regs (s : State) (v : Memory) : (s.withMem v).regs = s.regs := rfl
@[simp] theorem State.withMem_pc (s : State) (v : Memory) : (s.withMem v).pc = s.pc := rfl
@[simp] theorem State.withMem_sp (s : State) (v : Memory) : (s.withMem v).sp = s.sp := rfl
@[simp] theorem State.withMem_fl (s : State) (v : Memory) : (s.withMem v).fl = s.fl := rfl
@[simp] theorem State.withMem_jo (s : State) (v : Memory) : (s.withMem v).jo = s.jo := rfl
@[simp] theorem State.withMem_rs (s : State) (v : Memory) : (s.withMem v).rs = s.rs := rfl
@[simp] theorem State.withMem_cause (s : State) (v : Memory) : (s.withMem v).cause = s.cause := rfl
@[simp] theorem State.withMem_out (s : State) (v : Memory) : (s.withMem v).out = s.out := rfl

@[simp] theorem State.withRegs_mem (s : State) (v : RegFile) : (s.withRegs v).mem = s.mem := rfl
@[simp] theorem State.withRegs_regs (s : State) (v : RegFile) : (s.withRegs v).regs = v := rfl
@[simp] theorem State.withRegs_pc (s : State) (v : RegFile) : (s.withRegs v).pc = s.pc := rfl
@[simp] theorem State.withRegs_sp (s : State) (v : RegFile) : (s.withRegs v).sp = s.sp := rfl
@[simp] theorem State.withRegs_fl (s : State) (v : RegFile) : (s.withRegs v).fl = s.fl := rfl
@[simp] theorem State.withRegs_jo (s : State) (v : RegFile) : (s.withRegs v).jo = s.jo := rfl
@[simp] theorem State.withRegs_rs (s : State) (v : RegFile) : (s.withRegs v).rs = s.rs := rfl
@[simp] theorem State.withRegs_cause (s : State) (v : RegFile) : (s.withRegs v).cause = s.cause := rfl
@[simp] theorem State.withRegs_out (s : State) (v : RegFile) : (s.withRegs v).out = s.out := rfl

@[simp] theorem State.withPc_mem (s : State) (v : PcWord) : (s.withPc v).mem = s.mem := rfl
@[simp] theorem State.withPc_regs (s : State) (v : PcWord) : (s.withPc v).regs = s.regs := rfl
@[simp] theorem State.withPc_pc (s : State) (v : PcWord) : (s.withPc v).pc = v := rfl
@[simp] theorem State.withPc_sp (s : State) (v : PcWord) : (s.withPc v).sp = s.sp := rfl
@[simp] theorem State.withPc_fl (s : State) (v : PcWord) : (s.withPc v).fl = s.fl := rfl
@[simp] theorem State.withPc_jo (s : State) (v : PcWord) : (s.withPc v).jo = s.jo := rfl
@[simp] theorem State.withPc_rs (s : State) (v : PcWord) : (s.withPc v).rs = s.rs := rfl
@[simp] theorem State.withPc_cause (s : State) (v : PcWord) : (s.withPc v).cause = s.cause := rfl
@[simp] theorem State.withPc_out (s : State) (v : PcWord) : (s.withPc v).out = s.out := rfl

@[simp] theorem State.withFl_mem (s : State) (v : Byte) : (s.withFl v).mem = s.mem := rfl
@[simp] theorem State.withFl_regs (s : State) (v : Byte) : (s.withFl v).regs = s.regs := rfl
@[simp] theorem State.withFl_pc (s : State) (v : Byte) : (s.withFl v).pc = s.pc := rfl
@[simp] theorem State.withFl_sp (s : State) (v : Byte) : (s.withFl v).sp = s.sp := rfl
@[simp] theorem State.withFl_fl (s : State) (v : Byte) : (s.withFl v).fl = v := rfl
@[simp] theorem State.withFl_jo (s : State) (v : Byte) : (s.withFl v).jo = s.jo := rfl
@[simp] theorem State.withFl_rs (s : State) (v : Byte) : (s.withFl v).rs = s.rs := rfl
@[simp] theorem State.withFl_cause (s : State) (v : Byte) : (s.withFl v).cause = s.cause := rfl
@[simp] theorem State.withFl_out (s : State) (v : Byte) : (s.withFl v).out = s.out := rfl

@[simp] theorem State.withJo_mem (s : State) (v : OriginSet) : (s.withJo v).mem = s.mem := rfl
@[simp] theorem State.withJo_regs (s : State) (v : OriginSet) : (s.withJo v).regs = s.regs := rfl
@[simp] theorem State.withJo_pc (s : State) (v : OriginSet) : (s.withJo v).pc = s.pc := rfl
@[simp] theorem State.withJo_sp (s : State) (v : OriginSet) : (s.withJo v).sp = s.sp := rfl
@[simp] theorem State.withJo_fl (s : State) (v : OriginSet) : (s.withJo v).fl = s.fl := rfl
@[simp] theorem State.withJo_jo (s : State) (v : OriginSet) : (s.withJo v).jo = v := rfl
@[simp] theorem State.withJo_rs (s : State) (v : OriginSet) : (s.withJo v).rs = s.rs := rfl
@[simp] theorem State.withJo_cause (s : State) (v : OriginSet) : (s.withJo v).cause = s.cause := rfl
@[simp] theorem State.withJo_out (s : State) (v : OriginSet) : (s.withJo v).out = s.out := rfl

@[simp] theorem State.withRs_mem (s : State) (v : RunState) : (s.withRs v).mem = s.mem := rfl
@[simp] theorem State.withRs_regs (s : State) (v : RunState) : (s.withRs v).regs = s.regs := rfl
@[simp] theorem State.withRs_pc (s : State) (v : RunState) : (s.withRs v).pc = s.pc := rfl
@[simp] theorem State.withRs_sp (s : State) (v : RunState) : (s.withRs v).sp = s.sp := rfl
@[simp] theorem State.withRs_fl (s : State) (v : RunState) : (s.withRs v).fl = s.fl := rfl
@[simp] theorem State.withRs_jo (s : State) (v : RunState) : (s.withRs v).jo = s.jo := rfl
@[simp] theorem State.withRs_rs (s : State) (v : RunState) : (s.withRs v).rs = v := rfl
@[simp] theorem State.withRs_cause (s : State) (v : RunState) : (s.withRs v).cause = s.cause := rfl
@[simp] theorem State.withRs_out (s : State) (v : RunState) : (s.withRs v).out = s.out := rfl

@[simp] theorem State.withCause_mem (s : State) (v : Option Fatal) : (s.withCause v).mem = s.mem := rfl
@[simp] theorem State.withCause_regs (s : State) (v : Option Fatal) : (s.withCause v).regs = s.regs := rfl
@[simp] theorem State.withCause_pc (s : State) (v : Option Fatal) : (s.withCause v).pc = s.pc := rfl
@[simp] theorem State.withCause_sp (s : State) (v : Option Fatal) : (s.withCause v).sp = s.sp := rfl
@[simp] theorem State.withCause_fl (s : State) (v : Option Fatal) : (s.withCause v).fl = s.fl := rfl
@[simp] theorem State.withCause_jo (s : State) (v : Option Fatal) : (s.withCause v).jo = s.jo := rfl
@[simp] theorem State.withCause_rs (s : State) (v : Option Fatal) : (s.withCause v).rs = s.rs := rfl
@[simp] theorem State.withCause_cause (s : State) (v : Option Fatal) : (s.withCause v).cause = v := rfl
@[simp] theorem State.withCause_out (s : State) (v : Option Fatal) : (s.withCause v).out = s.out := rfl

@[simp] theorem State.withOut_mem (s : State) (v : List Byte) : (s.withOut v).mem = s.mem := rfl
@[simp] theorem State.withOut_regs (s : State) (v : List Byte) : (s.withOut v).regs = s.regs := rfl
@[simp] theorem State.withOut_pc (s : State) (v : List Byte) : (s.withOut v).pc = s.pc := rfl
@[simp] theorem State.withOut_sp (s : State) (v : List Byte) : (s.withOut v).sp = s.sp := rfl
@[simp] theorem State.withOut_fl (s : State) (v : List Byte) : (s.withOut v).fl = s.fl := rfl
@[simp] theorem State.withOut_jo (s : State) (v : List Byte) : (s.withOut v).jo = s.jo := rfl
@[simp] theorem State.withOut_rs (s : State) (v : List Byte) : (s.withOut v).rs = s.rs := rfl
@[simp] theorem State.withOut_cause (s : State) (v : List Byte) : (s.withOut v).cause = s.cause := rfl
@[simp] theorem State.withOut_out (s : State) (v : List Byte) : (s.withOut v).out = v := rfl

/-- Two states are equal when their nine fields are. -/
theorem State.ext_fields {s t : State} (hm : s.mem = t.mem) (hr : s.regs = t.regs) (hp : s.pc = t.pc)
    (hs : s.sp = t.sp) (hf : s.fl = t.fl) (hj : s.jo = t.jo) (hrs : s.rs = t.rs) (hc : s.cause = t.cause)
    (ho : s.out = t.out) : s = t := by
  cases s; cases t; simp_all

end Sys2Proof.Machine
end

