-- ==== Sys2Proof/Laws/Ops.lean ====
section
/-! SUPPORT. The shared operations of the loop: one lemma that says what each can do. -/

namespace Sys2Proof.Machine

/-- The fetch answers the three cells at PC, or OutOfRange when PC is 254 or more (40_execute_loop.md R67). -/
theorem fetch_eq (s : State) :
    fetch s = if s.pc.toNat ≤ 253 then
        .ok (s.mem.cell s.pc.toNat, s.mem.cell (s.pc.toNat + 1), s.mem.cell (s.pc.toNat + 2))
      else .error .outOfRange := by
  unfold fetch memRead
  by_cases h : s.pc.toNat ≤ 253
  · have h0 : s.pc.toNat < 256 := by omega
    have h1 : s.pc.toNat + 1 < 256 := by omega
    have h2 : s.pc.toNat + 2 < 256 := by omega
    simp [h, h0, h1, h2]
  · have h2 : ¬ s.pc.toNat + 2 < 256 := by omega
    simp [h, h2]

@[simp] theorem raise_mem (k : Fatal) (s : State) : (raise k s).mem = s.mem := rfl
@[simp] theorem raise_regs (k : Fatal) (s : State) : (raise k s).regs = s.regs := rfl
@[simp] theorem raise_pc (k : Fatal) (s : State) : (raise k s).pc = s.pc := rfl
@[simp] theorem raise_sp (k : Fatal) (s : State) : (raise k s).sp = s.sp := rfl
@[simp] theorem raise_fl (k : Fatal) (s : State) : (raise k s).fl = s.fl := rfl
@[simp] theorem raise_jo (k : Fatal) (s : State) : (raise k s).jo = s.jo := rfl
@[simp] theorem raise_rs (k : Fatal) (s : State) : (raise k s).rs = .faulted := rfl
@[simp] theorem raise_cause (k : Fatal) (s : State) : (raise k s).cause = some k := rfl
@[simp] theorem raise_out (k : Fatal) (s : State) : (raise k s).out = s.out := rfl

@[simp] theorem commit_mem (o : HandlerOut) (s : State) : (commit o s).mem = s.mem := rfl
@[simp] theorem commit_regs (o : HandlerOut) (s : State) : (commit o s).regs = o.regs := rfl
@[simp] theorem commit_pc (o : HandlerOut) (s : State) : (commit o s).pc = s.pc := rfl
@[simp] theorem commit_sp (o : HandlerOut) (s : State) : (commit o s).sp = s.sp := rfl
@[simp] theorem commit_fl (o : HandlerOut) (s : State) : (commit o s).fl = o.fl := rfl
@[simp] theorem commit_jo (o : HandlerOut) (s : State) : (commit o s).jo = s.jo := rfl
@[simp] theorem commit_rs (o : HandlerOut) (s : State) : (commit o s).rs = s.rs := rfl
@[simp] theorem commit_cause (o : HandlerOut) (s : State) : (commit o s).cause = s.cause := rfl
@[simp] theorem commit_out (o : HandlerOut) (s : State) : (commit o s).out = s.out ++ o.emit.toList := rfl

/-- Adding an address to JO adds that address and no other. -/
theorem joMem_joAdd (jo : OriginSet) (p q : PcWord) (hp : p.toNat < 256) :
    joMem (joAdd jo p) q = (joMem jo q || decide (q = p)) := by
  unfold joMem joAdd
  rw [BitVec.getLsbD_or, BitVec.getLsbD_twoPow]
  congr 1
  by_cases h : q = p
  · simp [h, hp]
  · have : p.toNat ≠ q.toNat := fun e => h (BitVec.eq_of_toNat_eq e.symm)
    simp [h, this]

/-- What the PC-update policy can do: stop, redirect, or advance. -/
theorem pcPolicy_cases (op : Byte) (result : HandlerResult) (s : State) :
    ((joMem s.jo s.pc = true ∨ result = .halt) ∧ pcPolicy op result s = stop s) ∨
      (joMem s.jo s.pc = false ∧ ∃ t, result = .redirect t ∧ pcPolicy op result s = redirectTo t s) ∨
      (joMem s.jo s.pc = false ∧ result = .noRedirect ∧ pcPolicy op result s = advance op s) := by
  unfold pcPolicy
  cases h : joMem s.jo s.pc with
  | true => exact .inl ⟨.inl rfl, by simp⟩
  | false =>
    cases result with
    | halt => exact .inl ⟨.inr rfl, by simp⟩
    | redirect t => exact .inr (.inl ⟨rfl, t, rfl, by simp⟩)
    | noRedirect => exact .inr (.inr ⟨rfl, rfl, by simp⟩)

/-- What the PC-update policy never touches. -/
theorem pcPolicy_frame (op : Byte) (result : HandlerResult) (s : State) :
    (pcPolicy op result s).mem = s.mem ∧ (pcPolicy op result s).regs = s.regs ∧ (pcPolicy op result s).sp = s.sp ∧
      (pcPolicy op result s).fl = s.fl ∧ (pcPolicy op result s).cause = s.cause ∧ (pcPolicy op result s).out = s.out := by
  rcases pcPolicy_cases op result s with ⟨-, h⟩ | ⟨-, t, -, h⟩ | ⟨-, -, h⟩ <;>
    rw [h] <;> exact ⟨rfl, rfl, rfl, rfl, rfl, rfl⟩

/-- Steps 3 to 6 always answer a next state: a fatal condition taken, or a completed handler's effects and the policy. -/
theorem retire_cases {op : Op} {h : Handler} {s : State} {out : Host.Outcome State Fault Refusal}
    (hr : retire op h s = out) :
    (∃ k, h s.regs s.fl = .error k ∧ out = .next (raise k s)) ∨
      (∃ o, h s.regs s.fl = .ok o ∧ out = .next (pcPolicy (opcodeOf op) o.result (commit o s))) := by
  subst hr
  unfold retire
  cases hh : h s.regs s.fl with
  | error k => exact .inl ⟨k, rfl, rfl⟩
  | ok o => exact .inr ⟨o, rfl, rfl⟩

theorem retire_of_ok {op : Op} {h : Handler} {s : State} {o : HandlerOut} (hh : h s.regs s.fl = .ok o) :
    retire op h s = .next (pcPolicy (opcodeOf op) o.result (commit o s)) := by unfold retire; rw [hh]

theorem retire_of_error {op : Op} {h : Handler} {s : State} {k : Fatal} (hh : h s.regs s.fl = .error k) :
    retire op h s = .next (raise k s) := by unfold retire; rw [hh]

end Sys2Proof.Machine
end

