-- ==== Sys2Proof/Laws/PerInstr.lean ====
section
/-! SUPPORT. Statements about every instruction as syntax, one lemma per constructor. -/

namespace Sys2Proof.Laws.EncodingLength

/-- The encoding begins with the instruction's opcode byte, and its length is that byte's default increment, one more than its
operand count (30_encoding.md R45, R48). -/
def Statement (i : Instr) : Prop :=
  (encode i).head? = some (opcodeOf i.op) ∧
    (encode i).length = (increment (opcodeOf i.op)).toNat ∧
    (encode i).length = (decodeFields (opcodeOf i.op)).operandCount.toNat + 1

/-- The length of an operation's instructions in the terms of its opcode byte. -/
theorem length_eq (o : Op) : (encode (o.instr 0#8 0#8)).length = (increment (opcodeOf o)).toNat ∧
    (encode (o.instr 0#8 0#8)).length = (decodeFields (opcodeOf o)).operandCount.toNat + 1 := by
  cases o <;> decide

theorem ldi (rd : RegIndex) (imm : Byte) : Statement (.ldi rd imm) :=
  ⟨rfl, (length_eq .ldi).1, (length_eq .ldi).2⟩
theorem prn (rs : RegIndex) : Statement (.prn rs) :=
  ⟨rfl, (length_eq .prn).1, (length_eq .prn).2⟩
theorem mul (ra rb : RegIndex) : Statement (.mul ra rb) :=
  ⟨rfl, (length_eq .mul).1, (length_eq .mul).2⟩
theorem cmp (ra rb : RegIndex) : Statement (.cmp ra rb) :=
  ⟨rfl, (length_eq .cmp).1, (length_eq .cmp).2⟩
theorem jmp (rt : RegIndex) : Statement (.jmp rt) :=
  ⟨rfl, (length_eq .jmp).1, (length_eq .jmp).2⟩
theorem jeq (rt : RegIndex) : Statement (.jeq rt) :=
  ⟨rfl, (length_eq .jeq).1, (length_eq .jeq).2⟩
theorem jne (rt : RegIndex) : Statement (.jne rt) :=
  ⟨rfl, (length_eq .jne).1, (length_eq .jne).2⟩
theorem hlt : Statement .hlt :=
  ⟨rfl, (length_eq .hlt).1, (length_eq .hlt).2⟩

end Sys2Proof.Laws.EncodingLength
end

