-- ==== Sys2Proof/Laws/Step.lean ====
section
/-! SUPPORT. What one instruction and one step can do. -/

namespace Sys2Proof.Machine

/-- The handler an instruction runs, its operands applied (40_execute_loop.md R69). -/
def handlerFor : Instr → Handler
  | .ldi rd imm => handleLdi rd imm
  | .prn rs => handlePrn rs
  | .mul ra rb => handleMul ra rb
  | .cmp ra rb => handleCmp ra rb
  | .jmp rt => handleJmp rt
  | .jeq rt => handleJeq rt
  | .jne rt => handleJne rt
  | .hlt => handleHlt

/-- Every meaning is its handler, retired. -/
theorem exec_eq_retire (i : Instr) (s : State) : exec i s = retire i.op (handlerFor i) s := by cases i <;> rfl

/-- An instruction always answers a next state: it takes a fatal condition of its handler, or it completes. -/
theorem exec_cases {i : Instr} {s t : State} (h : exec i s = .next t) :
    (∃ k, handlerFor i s.regs s.fl = .error k ∧ t = raise k s) ∨
      (∃ o, handlerFor i s.regs s.fl = .ok o ∧ t = pcPolicy (opcodeOf i.op) o.result (commit o s)) := by
  rw [exec_eq_retire] at h
  rcases retire_cases h with ⟨k, hk, he⟩ | ⟨o, ho, he⟩
  · cases he; exact .inl ⟨k, hk, rfl⟩
  · cases he; exact .inr ⟨o, ho, rfl⟩

theorem exec_isNext (i : Instr) (s : State) : ∃ t, exec i s = .next t := by
  rw [exec_eq_retire]
  rcases retire_cases (rfl : retire i.op (handlerFor i) s = _) with ⟨k, -, h⟩ | ⟨o, -, h⟩ <;> exact ⟨_, h⟩

theorem handleLdi_eq (rd : RegIndex) (imm : Byte) (r : RegFile) (fl : Byte) :
    handleLdi rd imm r fl = if h : rd.toNat < 9 then
        .ok { regs := r.set rd.toNat imm h, fl := fl, emit := none, result := .noRedirect }
      else .error .outOfRange := by
  unfold handleLdi
  split_ifs with h
  · rw [immediate_eq, regWrite_of_lt h]
  · rw [regWrite_of_ge (by omega)]

theorem handlePrn_eq (rs : RegIndex) (r : RegFile) (fl : Byte) :
    handlePrn rs r fl = if h : rs.toNat < 9 then
        .ok { regs := r, fl := fl, emit := some (r[rs.toNat]'h), result := .noRedirect }
      else .error .outOfRange := by
  unfold handlePrn
  split_ifs with h
  · rw [regRead_of_lt h]
  · rw [regRead_of_ge (by omega)]

theorem handleMul_eq (ra rb : RegIndex) (r : RegFile) (fl : Byte) :
    handleMul ra rb r fl = if h : ra.toNat < 9 ∧ rb.toNat < 9 then
        if (r[ra.toNat]'h.1).toNat * (r[rb.toNat]'h.2).toNat ≤ 255 then
          .ok { regs := r.set ra.toNat (BitVec.ofNat 8 ((r[ra.toNat]'h.1).toNat * (r[rb.toNat]'h.2).toNat)) h.1,
                fl := fl, emit := none, result := .noRedirect }
        else .error .resultOutOfRange
      else .error .outOfRange := by
  unfold handleMul
  split_ifs with h h2
  · rw [regRead_of_lt h.1, regRead_of_lt h.2]
    have hn : ¬ product (r[ra.toNat]'h.1) (r[rb.toNat]'h.2) > Config.regMax := Nat.not_lt.mpr h2
    simp only [hn, if_false, regWrite_of_lt h.1]
    rfl
  · rw [regRead_of_lt h.1, regRead_of_lt h.2]
    have hn : product (r[ra.toNat]'h.1) (r[rb.toNat]'h.2) > Config.regMax := Nat.not_le.mp h2
    simp only [hn, if_true]
  · rcases Nat.lt_or_ge ra.toNat 9 with ha | ha
    · rw [regRead_of_lt ha, regRead_of_ge (by omega)]
    · rw [regRead_of_ge ha]

theorem handleCmp_eq (ra rb : RegIndex) (r : RegFile) (fl : Byte) :
    handleCmp ra rb r fl = if h : ra.toNat < 9 ∧ rb.toNat < 9 then
        .ok { regs := r, fl := compareFlags (r[ra.toNat]'h.1) (r[rb.toNat]'h.2), emit := none, result := .noRedirect }
      else .error .outOfRange := by
  unfold handleCmp
  split_ifs with h
  · rw [regRead_of_lt h.1, regRead_of_lt h.2]
  · rcases Nat.lt_or_ge ra.toNat 9 with ha | ha
    · rw [regRead_of_lt ha, regRead_of_ge (by omega)]
    · rw [regRead_of_ge ha]

theorem handleJump_eq (taken : Byte → Bool) (rt : RegIndex) (r : RegFile) (fl : Byte) :
    handleJump taken rt r fl = if h : rt.toNat < 9 then
        .ok { regs := r, fl := fl, emit := none,
              result := if taken fl then .redirect (r[rt.toNat]'h) else .noRedirect }
      else .error .outOfRange := by
  unfold handleJump
  rcases regRead_cases r rt with ⟨h, hr⟩ | ⟨h, hr⟩
  · rw [hr, dif_pos h]
  · rw [hr, dif_neg (by omega)]

/-- What a step of a running machine can do, guards included: the fetch fails, the opcode is unknown, or the decoded
instruction is executed (40_execute_loop.md R73). -/
theorem step_running {s : State} (hr : s.rs = .running) :
    (254 ≤ s.pc.toNat ∧ step s = .next (raise .outOfRange s)) ∨
      (s.pc.toNat ≤ 253 ∧ (∀ o, s.mem.cell s.pc.toNat ≠ opcodeOf o) ∧ step s = .next (raise .unknownOpcode s)) ∨
      (s.pc.toNat ≤ 253 ∧ ∃ o, s.mem.cell s.pc.toNat = opcodeOf o ∧
        step s = exec (o.instr (s.mem.cell (s.pc.toNat + 1)) (s.mem.cell (s.pc.toNat + 2))) s) := by
  unfold step
  rw [hr]
  simp only [fetch_eq]
  split_ifs with hp
  · right
    cases hd : decode (s.mem.cell s.pc.toNat) (s.mem.cell (s.pc.toNat + 1)) (s.mem.cell (s.pc.toNat + 2)) with
    | error e => exact .inl ⟨hp, (decode_eq_error_iff.mp hd).2, by simp only [hd]⟩
    | ok i =>
      obtain ⟨o, ho, hi⟩ := decode_eq_ok_iff.mp hd
      exact .inr ⟨hp, o, ho, by simp only [hd, hi]⟩
  · exact .inl ⟨by omega, rfl⟩

/-- There is no step out of a terminal state (40_execute_loop.md R66). -/
theorem step_halted {s : State} (h : s.rs = .halted) : step s = .fault .alreadyHalted := by unfold step; rw [h]

theorem step_faulted {s : State} (h : s.rs = .faulted) : step s = .fault .alreadyFaulted := by unfold step; rw [h]

/-- A step that answers a next state was taken by a running machine. -/
theorem running_of_step {s t : State} (h : step s = .next t) : s.rs = .running := by
  cases hr : s.rs with
  | running => rfl
  | halted => rw [step_halted hr] at h; cases h
  | faulted => rw [step_faulted hr] at h; cases h

/-- The two shapes of a step's next state: a fatal condition taken, or an instruction's effect at a fetchable PC. -/
theorem step_cases {s t : State} (h : step s = .next t) :
    (∃ k, t = raise k s) ∨
      (s.pc.toNat ≤ 253 ∧ ∃ o out, s.mem.cell s.pc.toNat = opcodeOf o ∧
        handlerFor (o.instr (s.mem.cell (s.pc.toNat + 1)) (s.mem.cell (s.pc.toNat + 2))) s.regs s.fl = .ok out ∧
        t = pcPolicy (opcodeOf o) out.result (commit out s)) := by
  rcases step_running (running_of_step h) with ⟨-, he⟩ | ⟨-, -, he⟩ | ⟨hp, o, ho, he⟩
  · rw [he] at h; cases h; exact .inl ⟨_, rfl⟩
  · rw [he] at h; cases h; exact .inl ⟨_, rfl⟩
  · rw [he] at h
    rcases exec_cases h with ⟨k, -, rfl⟩ | ⟨out, hout, rfl⟩
    · exact .inl ⟨k, rfl⟩
    · exact .inr ⟨hp, o, out, ho, hout, by rw [Op.instr_op]⟩

end Sys2Proof.Machine
end

