-- ==== Sys2Proof/Tests/Slice0.lean ====
section
/-! SUPPORT. Small tests. Expected results are taken from spec/95_test_vectors.md (S and V numbers), from the encodings written out
in 30_encoding.md section 4, or from the rule named; none is the model's own answer pasted back. The witnesses at the end show,
for every statement with hypotheses, a state and operands that meet them together. -/

namespace Sys2Proof.Tests

open Sys2Proof Sys2Proof.Machine

/-- The reset state with PC = p and three bytes at p. -/
def at3 (p : Nat) (op a b : Byte) : State :=
  { State.reset with pc := BitVec.ofNat 9 p, mem := ((Memory.put [] p op).put (p + 1) a).put (p + 2) b }

/-- The state with one register set. -/
def withReg (s : State) (i : Nat) (v : Byte) (h : i < 9 := by decide) : State := s.withRegs (s.regs.set i v h)

/-- The state with one address in JO. -/
def withOrigin (s : State) (p : Nat) : State := s.withJo (1#256 <<< p)

/-- What one step gives, seen through a projection; `none` when there is no next state. -/
def after {α : Type} (s : State) (f : State → α) : Option α :=
  match step s with
  | .next t => some (f t)
  | .fault _ => none
  | .refused _ => none

/-! ## Encodings written out bit by bit (30_encoding.md R54, R61) -/

theorem test_decode_ldi : decodeBytes [0b10000010#8, 0b00001000#8, 0b11111111#8] = .ok (.ldi 8#8 255#8) := by decide
theorem test_decode_prn : decodeBytes [0b01000111#8, 0b00000101#8, 0b10000010#8] = .ok (.prn 5#8) := by decide
theorem test_decode_mul : decodeBytes [0b10100010#8, 0b00000000#8, 0b00000001#8] = .ok (.mul 0#8 1#8) := by decide
theorem test_decode_cmp : decodeBytes [0b10100111#8, 0b00000001#8, 0b00000000#8] = .ok (.cmp 1#8 0#8) := by decide
theorem test_decode_jmp : decodeBytes [0b01010100#8, 0b00000010#8, 0b00000000#8] = .ok (.jmp 2#8) := by decide
theorem test_decode_jeq : decodeBytes [0b01010101#8, 0b00000010#8, 0b00000000#8] = .ok (.jeq 2#8) := by decide
theorem test_decode_jne : decodeBytes [0b01010110#8, 0b11111111#8, 0b00000000#8] = .ok (.jne 255#8) := by decide
theorem test_decode_hlt : decodeBytes [0b00000001#8, 0b11111111#8, 0b11111111#8] = .ok .hlt := by decide
/-- V9a to V9e: no key. -/
theorem test_decode_unknown :
    [0x00#8, 0xFF#8, 0x02#8, 0x87#8, 0x57#8].map dispatch = [none, none, none, none, none] := by decide
/-- V4: the decoder's outputs for 0xA7. -/
theorem test_fields_cmp : decodeFields 0xA7#8 =
    { operandCount := 2#2, isAlu := true, isPcSetting := false, ident := 7#4, increment := 3#3 } := by decide
/-- V9b: the decoder is total. -/
theorem test_fields_ff : decodeFields 0xFF#8 =
    { operandCount := 3#2, isAlu := true, isPcSetting := true, ident := 15#4, increment := 4#3 } := by decide
/-- A table word's first byte is its least significant. -/
theorem test_table_word : decodeTableWord 24 0xFF0882 = some (.ldi 8#8 255#8) := by decide
theorem test_table_word_short : decodeTableWord 8 0x82 = some (.ldi 0#8 0#8) := by decide

/-! ## WellFormed refuses each ill-formed operand (70_reset_and_hazards.md R143) -/

theorem test_wf_ldi : (Instr.ldi 9#8 0#8).wf = false ∧ (Instr.ldi 8#8 255#8).wf = true := by decide
theorem test_wf_prn : (Instr.prn 9#8).wf = false := by decide
theorem test_wf_mul : (Instr.mul 9#8 0#8).wf = false ∧ (Instr.mul 0#8 9#8).wf = false := by decide
theorem test_wf_cmp : (Instr.cmp 200#8 0#8).wf = false ∧ (Instr.cmp 0#8 9#8).wf = false := by decide
theorem test_wf_jumps : (Instr.jmp 9#8).wf = false ∧ (Instr.jeq 9#8).wf = false ∧ (Instr.jne 255#8).wf = false := by decide
theorem test_wf_image : imageWf (List.replicate 257 0#8) = false ∧ imageWf (List.replicate 256 0#8) = true := by
  unfold imageWf
  rw [List.length_replicate, List.length_replicate]
  decide

/-! ## One step of each instruction -/

/-- V11. -/
theorem test_ldi : after (at3 0 0x82#8 8#8 0xFF#8) (fun t => (t.regs[8], t.pc)) = some (255#8, 3#9) := by decide
/-- V13. -/
theorem test_ldi_out_of_range : after (at3 0 0x82#8 9#8 1#8) (fun t => (t.rs, t.cause, t.pc)) =
    some (.faulted, some .outOfRange, 0#9) := by decide
/-- V16: the ignored byte is 0x82. -/
theorem test_prn : after (at3 0 0x47#8 5#8 0x82#8) (fun t => (t.out, t.pc)) = some ([0#8], 2#9) := by decide
/-- V17, after earlier output: oldest first. -/
theorem test_prn_order : after ((withReg (at3 0 0x47#8 8#8 0#8) 8 255#8).withOut [7#8]) (·.out) = some [7#8, 255#8] := by
  decide
/-- V27: one register as both sources and destination. -/
theorem test_mul_same : after (withReg (at3 0 0xA2#8 2#8 2#8) 2 15#8) (fun t => (t.regs[2], t.pc)) =
    some (225#8, 3#9) := by decide
/-- V22. -/
theorem test_mul_too_large : after (withReg (withReg (at3 0 0xA2#8 0#8 1#8) 0 16#8) 1 16#8)
    (fun t => (t.rs, t.cause, t.regs[0])) = some (.faulted, some .resultOutOfRange, 16#8) := by decide
/-- V33: unsigned. -/
theorem test_cmp_unsigned : after (withReg (withReg (at3 0 0xA7#8 0#8 1#8) 0 255#8) 1 1#8) (·.fl) = some 0x02#8 := by
  decide
/-- V31: the old flag is cleared. -/
theorem test_cmp_less : after ((withReg (withReg (at3 0 0xA7#8 0#8 1#8) 0 10#8) 1 20#8).withFl 0x01#8) (·.fl) =
    some 0x04#8 := by decide
/-- V40. -/
theorem test_jmp : after (withReg (at3 14 0x54#8 2#8 0#8) 2 9#8) (fun t => (t.pc, t.jo)) =
    some (9#9, 1#256 <<< 14) := by decide
/-- V51. -/
theorem test_jmp_revisited : after (withOrigin (withReg (at3 14 0x54#8 2#8 0#8) 2 9#8) 14)
    (fun t => (t.rs, t.pc, t.jo)) = some (.halted, 14#9, 1#256 <<< 14) := by decide
/-- V42: L set, so E clear. -/
theorem test_jeq_not_taken : after ((withReg (at3 12 0x55#8 2#8 0#8) 2 17#8).withFl 0x04#8) (fun t => (t.pc, t.jo)) =
    some (14#9, 0#256) := by decide
/-- V54: the index is checked although the jump would not be taken. -/
theorem test_jeq_index_checked : after (at3 0 0x55#8 9#8 0#8) (fun t => (t.rs, t.cause)) =
    some (.faulted, some .outOfRange) := by decide
/-- V45: before any compare. -/
theorem test_jne_taken : after (withReg (at3 3 0x56#8 0#8 0#8) 0 6#8) (fun t => (t.pc, t.jo)) =
    some (6#9, 1#256 <<< 3) := by decide
/-- V46. -/
theorem test_jne_not_taken : after ((withReg (at3 3 0x56#8 0#8 0#8) 0 6#8).withFl 0x01#8) (·.pc) = some 5#9 := by decide
/-- V48. -/
theorem test_hlt : after (at3 0 0x01#8 0xFF#8 0xFF#8) (fun t => (t.rs, t.pc)) = some (.halted, 0#9) := by decide
/-- V60: HLT at 254 is not executed. -/
theorem test_hlt_at_254 : after (at3 254 0x01#8 0#8 0#8) (fun t => (t.rs, t.cause, t.pc)) =
    some (.faulted, some .outOfRange, 254#9) := by decide

/-! ## Fetch, dispatch, host -/

/-- V65: operands of an unknown opcode are not interpreted. -/
theorem test_unknown_first : after (at3 0 0x00#8 9#8 9#8) (·.cause) = some (some .unknownOpcode) := by decide
/-- V69: an LDI at 251 reaches 254. -/
theorem test_top_of_memory : after (at3 251 0x82#8 1#8 7#8) (fun t => (t.regs[1], t.pc)) = some (7#8, 254#9) := by decide
/-- 70_reset_and_hazards.md R135: a run without a load raises UnknownOpcode at address 0 on its first step. -/
theorem test_reset_step : after State.reset (fun t => (t.rs, t.cause, t.pc)) =
    some (.faulted, some .unknownOpcode, 0#9) := by decide
/-- The placed instruction is what the next step runs. -/
theorem test_with_fetch_word : after (State.reset.withFetchWord 24 0x070182) (·.regs[1]) = some 7#8 := by decide
/-- 50_interfaces.md R109: the empty image gives the reset memory, and a fill byte in an image is not listed. -/
theorem test_load_fill : (load [0x82#8, 0x00#8, 0x08#8] State.reset).2.mem = [(0, 0x82#8), (2, 0x08#8)] := by decide
/-- 10_state.md R23. -/
theorem test_out_text : outText [0#8, 27#8, 255#8] = ['0', '\n', '2', '7', '\n', '2', '5', '5', '\n'] := by decide
/-- S1: the program line `10000010 # LDI R0,8`. -/
theorem test_program_line :
    lineKind ['1', '0', '0', '0', '0', '0', '1', '0', ' ', '#', ' ', 'L'] = .byte 0x82#8 := by decide
/-- 30_encoding.md R60: nine digits are no line of exactly eight; a comment-only line is skipped. -/
theorem test_program_line_malformed :
    lineKind ['1', '0', '0', '0', '0', '0', '1', '0', '1'] = .malformed ∧ lineKind ['#', '1'] = .skipped := by decide

/-! ## Witnesses: the hypotheses of each statement can be met, each clause at a boundary of its range -/

theorem witness_DecodedLengthIsOperandCountPlusOne :
    decode 0x82#8 8#8 255#8 = .ok (.ldi 8#8 255#8) ∧
    encode (.ldi 8#8 255#8) = [0x82#8, 8#8, 255#8].take (encode (.ldi 8#8 255#8)).length := by decide
theorem witness_DecoderOutputsAreTheFields : 192 ≤ (0xC0#8 : Byte).toNat := by decide
theorem witness_RegisterAccessIsRangeChecked : (8#8 : Byte).toNat < 9 ∧ (7#8 : Byte) ≠ 8#8 ∧ 9 ≤ (9#8 : Byte).toNat := by
  decide
theorem witness_image_of_256_bytes : (List.replicate 256 (0xFF#8 : Byte)).length ≤ 256 := List.length_replicate.le
theorem witness_OversizedImageIsRefused : 256 < (List.replicate 257 (0#8 : Byte)).length := by
  rw [List.length_replicate]
  decide

/-- The clauses of the eight instruction statements: the last fetchable PC, the last index that exists and the first that does
not, PC in JO and not. -/
theorem witness_instruction_clauses :
    (at3 253 0x82#8 8#8 0#8).pc.toNat ≤ 253 ∧ (8#8 : Byte).toNat < 9 ∧ 9 ≤ (9#8 : Byte).toNat ∧
    joMem (at3 253 0x82#8 8#8 0#8).jo (at3 253 0x82#8 8#8 0#8).pc = false ∧
    joMem (withOrigin (at3 253 0x82#8 8#8 0#8) 253).jo (withOrigin (at3 253 0x82#8 8#8 0#8) 253).pc = true := by decide
/-- The products 255 and 256 (V21, V22). -/
theorem witness_MulStoresTheExactProduct :
    ((withReg (withReg State.reset 7 15#8) 8 17#8).regs[7]).toNat *
      ((withReg (withReg State.reset 7 15#8) 8 17#8).regs[8]).toNat ≤ 255 ∧
    255 < ((withReg (withReg State.reset 7 16#8) 8 16#8).regs[7]).toNat *
      ((withReg (withReg State.reset 7 16#8) 8 16#8).regs[8]).toNat := by decide
theorem witness_CmpWritesOneFlag :
    (State.reset.regs[7]).toNat = (State.reset.regs[8]).toNat ∧
    ((withReg State.reset 8 1#8).regs[7]).toNat < ((withReg State.reset 8 1#8).regs[8]).toNat := by decide
/-- A jump to 254, and one to 253 where no opcode stands. -/
theorem witness_JmpRedirectsOnce :
    (withReg State.reset 8 254#8).rs = .running ∧ 254 ≤ ((withReg State.reset 8 254#8).regs[8]).toNat ∧
    ((withReg State.reset 8 253#8).regs[8]).toNat ≤ 253 ∧
    dispatch ((withReg State.reset 8 253#8).mem.cell ((withReg State.reset 8 253#8).regs[8]).toNat) = none := by decide
theorem witness_conditional_jumps :
    (State.reset.withFl 0x01#8).fl.getLsbD 0 = true ∧ (State.reset.withFl 0x04#8).fl.getLsbD 0 = false := by decide
theorem witness_HltHaltsTheMachine :
    (at3 253 0x01#8 0#8 0#8).rs = .running ∧ (at3 253 0x01#8 0#8 0#8).pc.toNat ≤ 253 ∧
    (at3 253 0x01#8 0#8 0#8).mem.cell (at3 253 0x01#8 0#8 0#8).pc.toNat = 0x01#8 ∧
    254 ≤ (at3 254 0x01#8 0#8 0#8).pc.toNat ∧ (State.reset.withRs .halted).rs = .halted ∧
    after (at3 253 0x01#8 0#8 0#8) (·.rs) = some .halted := by decide

theorem witness_StepRunsTheDecodedInstruction :
    (at3 253 0xA7#8 8#8 9#8).rs = .running ∧ (at3 253 0xA7#8 8#8 9#8).pc.toNat ≤ 253 ∧
    instrAtPc (at3 253 0xA7#8 8#8 9#8) = .ok (.cmp 8#8 9#8) := by decide
theorem witness_StepRunsTheEncodedInstruction :
    ∀ k : Nat, k < (encode (.cmp 8#8 9#8)).length →
      (encode (.cmp 8#8 9#8))[k]? = some ((at3 253 0xA7#8 8#8 9#8).mem.cell ((at3 253 0xA7#8 8#8 9#8).pc.toNat + k)) := by
  decide
theorem witness_PlacedWordIsRunNext :
    State.reset.mem.wf = true ∧ State.reset.rs = .running ∧ State.reset.pc.toNat ≤ 253 ∧
    decodeTableWord 24 0x0108A2 = some (.mul 8#8 1#8) := by decide

/-- PC = 253 in JO and not in JO, with a redirect target of 254 and of 253. -/
theorem witness_pc_policy :
    joMem (withOrigin (at3 253 0#8 0#8 0#8) 253).jo (253#9) = true ∧ joMem (at3 253 0#8 0#8 0#8).jo (253#9) = false ∧
    (at3 253 0#8 0#8 0#8).pc.toNat ≤ 253 ∧ 254 ≤ (254#8 : Byte).toNat ∧ (253#8 : Byte).toNat ≤ 253 ∧
    dispatch ((at3 253 0#8 0#8 0#8).mem.cell (253#8 : Byte).toNat) = none := by decide
/-- Every instruction meets the condition of the PC table. -/
theorem witness_NextPcTableOfEveryInstruction :
    [Instr.ldi 8#8 255#8, .prn 8#8, .mul 8#8 8#8, .cmp 8#8 8#8, .jmp 8#8, .jeq 8#8, .jne 8#8, .hlt].all
      (fun i => noFatal i State.reset.regs) = true := by decide
theorem witness_RevisitedJumpHalts :
    (withOrigin (at3 253 0x55#8 8#8 0#8) 253).rs = .running ∧
    joMem (withOrigin (at3 253 0x55#8 8#8 0#8) 253).jo (withOrigin (at3 253 0x55#8 8#8 0#8) 253).pc = true ∧
    instrAtPc (withOrigin (at3 253 0x55#8 8#8 0#8) 253) = .ok (.jeq 8#8) := by decide
theorem witness_RevisitedJumpHalts_not_taken :
    (∃ t, exec (.jeq 8#8) State.reset = .next t) ∧ State.reset.fl.getLsbD 0 = false ∧
    (∃ t, exec (.jne 8#8) (State.reset.withFl 0x01#8) = .next t) ∧ (State.reset.withFl 0x01#8).fl.getLsbD 0 = true :=
  ⟨⟨_, rfl⟩, rfl, ⟨_, rfl⟩, rfl⟩
theorem witness_RedirectNeedsThePcSettingBit :
    (∃ t, step (at3 253 0x47#8 8#8 0#8) = .next t) ∧
    (decodeFields ((at3 253 0x47#8 8#8 0#8).mem.cell (at3 253 0x47#8 8#8 0#8).pc.toNat)).isPcSetting = false :=
  ⟨⟨_, rfl⟩, by decide⟩

/-- Running, at 254, at 253 with a bad index, with an unknown opcode, with a product that does not fit, and with one that does. -/
theorem witness_fatal_clauses :
    State.reset.rs = .running ∧ 254 ≤ (at3 254 0#8 0#8 0#8).pc.toNat ∧
    instrAtPc (at3 253 0x82#8 9#8 0#8) = .ok (.ldi 9#8 0#8) ∧ (Instr.ldi 9#8 0#8).wf = false ∧
    dispatch ((at3 253 0x00#8 0#8 0#8).mem.cell 253) = none ∧ 192 ≤ ((at3 253 0xC0#8 0#8 0#8).mem.cell 253).toNat ∧
    instrAtPc (withReg (at3 253 0xA2#8 8#8 8#8) 8 16#8) = .ok (.mul 8#8 8#8) ∧ (Instr.mul 8#8 8#8).wf = true ∧
    productFits (.mul 8#8 8#8) (withReg State.reset 8 16#8).regs = false ∧
    productFits (.mul 8#8 8#8) (withReg State.reset 8 15#8).regs = true := by decide
theorem witness_FaultsArePrecise : ∃ t, step (at3 254 0#8 0#8 0#8) = .next t ∧ t.rs = .faulted := ⟨_, rfl, rfl⟩
theorem witness_TerminalStatesHaveNoStep :
    (State.reset.withRs .halted).rs = .halted ∧ (State.reset.withRs .faulted).rs = .faulted ∧
    State.reset.rs = .running := by decide

/-- Each instruction of the frames answers a next state, without a fault. -/
theorem witness_frames :
    [exec (.ldi 8#8 255#8) State.reset, exec (.mul 8#8 0#8) State.reset, exec (.cmp 8#8 0#8) State.reset,
     exec (.prn 8#8) State.reset, exec (.jmp 8#8) State.reset, exec (.jeq 8#8) State.reset, exec (.jne 8#8) State.reset,
     exec .hlt State.reset].all
      (fun o => match o with | .next t => decide (t.rs ≠ .faulted) | _ => false) = true := by decide
/-- A step of each kind the whole-machine statements speak of: a completed CMP, a taken JMP, a PRN. -/
theorem witness_whole_machine_steps :
    (∃ t, step (at3 253 0xA7#8 8#8 8#8) = .next t ∧ t.rs ≠ .faulted) ∧ instrAtPc (at3 253 0xA7#8 8#8 8#8) = .ok (.cmp 8#8 8#8) ∧
    (∃ t, step (at3 253 0x54#8 8#8 0#8) = .next t ∧ t.jo ≠ 0#256) ∧
    (∃ t, step (at3 253 0x47#8 8#8 0#8) = .next t ∧ t.out ≠ []) :=
  ⟨⟨_, rfl, by decide⟩, by decide, ⟨_, rfl, by decide⟩, ⟨_, rfl, by decide⟩⟩
theorem witness_LessAndGreaterAreNeverRead :
    (0x06#8 : Byte).getLsbD 0 = (at3 253 0x55#8 8#8 0#8).fl.getLsbD 0 ∧ ∃ t, step (at3 253 0x55#8 8#8 0#8) = .next t :=
  ⟨by decide, _, rfl⟩
/-- A memory that differs in the byte after a one-operand instruction. -/
theorem witness_StepIgnoresBytesOutsideTheInstruction :
    (∃ t, step (at3 253 0x47#8 8#8 0#8) = .next t) ∧
    (∀ k : Nat, k < (increment ((at3 253 0x47#8 8#8 0#8).mem.cell 253)).toNat →
      (at3 253 0x47#8 8#8 0xFF#8).mem.cell (253 + k) = (at3 253 0x47#8 8#8 0#8).mem.cell (253 + k)) ∧
    (at3 253 0x47#8 8#8 0xFF#8).mem ≠ (at3 253 0x47#8 8#8 0#8).mem := ⟨⟨_, rfl⟩, by decide, by decide⟩

/-- A JMP at 253 whose address is in JO. -/
def revisited : State := withOrigin (at3 253 0x54#8 8#8 0#8) 253

theorem revisited_origins (p : Nat) (h : revisited.jo.getLsbD p = true) : p = 253 := by
  have hj : revisited.jo = BitVec.twoPow 256 253 := by decide
  rw [hj, BitVec.getLsbD_twoPow] at h
  simpa [eq_comm] using h

theorem witness_RevisitedOriginOnlyHalts :
    Inv revisited ∧ revisited.rs = .running ∧ joMem revisited.jo revisited.pc = true where
  left :=
    { mem_wf := by decide
      pc_le := by decide
      sp_sentinel := by decide
      fl_one_hot := by decide
      cause_iff := by decide
      origins := fun p h => by rw [revisited_origins p h]; decide }
  right := by decide
theorem witness_NextPcTableOfEveryInstruction_in_JO :
    Inv revisited ∧ joMem revisited.jo revisited.pc = true ∧ instrAtPc revisited = .ok (.jmp 8#8) :=
  ⟨witness_RevisitedOriginOnlyHalts.1, by decide, by decide⟩
theorem witness_ProgramObligationsAreExactlyNoFault_halts :
    ∃ t, step (at3 0 0x01#8 0#8 0#8) = .next t ∧ t.rs = .halted := ⟨_, rfl, rfl⟩
theorem witness_StepKeepsTheInvariant : Inv revisited ∧ ∃ t, step revisited = .next t :=
  ⟨witness_RevisitedOriginOnlyHalts.1, _, rfl⟩
/-- Index 9 is out of range: the fatal line is up, and PRN's output is not valid (50_interfaces.md R108). -/
theorem witness_StepIsTheBlockMultiplexer :
    State.reset.rs = .running ∧ (blockSignals false (some .prn) 9#8 0#8 State.reset.regs 0#8).fatal ≠ none ∧
    (blockSignals false (some .prn) 9#8 0#8 State.reset.regs 0#8).outValid = none ∧
    (blockSignals false (some .prn) 8#8 0#8 State.reset.regs 0#8).fatal = none := by decide
theorem witness_ProgramLinesGiveTheImage :
    (allBlank [] ∧ allBlank ['\t'] ∧ blankOrComment [] ∧ blankOrComment [' ', '#', '1'] ∧ [' ', '#', '1'].head? ≠ some '#') ∧
    (['1', '1', '1', '1', '1', '1', '1', '1'].length = 8 ∧ lineKind (byteLine 0xFF#8) = .byte 0xFF#8) ∧
    ∃ line ∈ [['2']], lineKind line = .malformed :=
  ⟨⟨by simp [allBlank], by simp [allBlank, isBlank], .inl (by simp [allBlank]), .inr ⟨[' '], ['1'], by simp [allBlank, isBlank], rfl⟩,
    by decide⟩, by decide, by decide⟩
/-- A line of nine digits has none of the forms of a skipped line or of a byte, so the malformed clause applies to it. -/
theorem witness_ProgramLinesGiveTheImage_malformed :
    ¬ blankOrComment ['1', '1', '1', '1', '1', '1', '1', '1', '1'] ∧
    ¬ ∃ (b : Byte) (lead tail : List Char), allBlank lead ∧ blankOrComment tail ∧
      ['1', '1', '1', '1', '1', '1', '1', '1', '1'] = lead ++ byteLine b ++ tail := by
  have one : isBlank '1' = false := by decide
  have no : ∀ (xs : List Char), (∀ c ∈ xs, c = '1') → blankOrComment xs → xs = [] := by
    rintro xs h (hb | ⟨w, r, -, rfl⟩)
    · cases xs with
      | nil => rfl
      | cons c cs => exact absurd (hb c (by simp)) (by rw [h c (by simp), one]; decide)
    · exact absurd (h '#' (by simp)) (by decide)
  refine ⟨fun h => absurd (no _ (by simp) h) (by simp), ?_⟩
  rintro ⟨b, lead, tail, hl, ht, he⟩
  have h1 : ∀ c ∈ lead ++ byteLine b ++ tail, c = '1' := by rw [← he]; simp
  have ht := no tail (fun c hc => h1 c (by simp [hc])) ht
  have hl := no lead (fun c hc => h1 c (by simp [hc])) (.inl hl)
  subst ht hl
  simpa [byteLine] using congrArg List.length he

end Sys2Proof.Tests
end

section
/-! SUPPORT. What a read of the register file answers after a write (10_state.md R12), and the statement about it. -/

namespace Sys2Proof.Machine

/-- The slot just written reads as the value written. -/
theorem regRead_set_self (r : RegFile) {i : RegIndex} (h : i.toNat < 9) (v : Byte) :
    regRead (r.set i.toNat v h) i = .ok v := by
  rw [regRead_of_lt h, Vector.getElem_set_self]

/-- Every other index reads as before, out-of-range indices included. -/
theorem regRead_set_of_ne (r : RegFile) {i j : RegIndex} (h : i.toNat < 9) (v : Byte) (hij : j ≠ i) :
    regRead (r.set i.toNat v h) j = regRead r j := by
  have hne : i.toNat ≠ j.toNat := fun e => hij (BitVec.eq_of_toNat_eq e.symm)
  rcases Nat.lt_or_ge j.toNat 9 with hj | hj
  · rw [regRead_of_lt hj, regRead_of_lt hj, Vector.getElem_set_ne h hj hne]
  · rw [regRead_of_ge hj, regRead_of_ge hj]

/-- Settles O8: the written file is `r.set`, which the two read-after-write rules describe at every index. -/
theorem registerAccessIsRangeChecked : Obligations.RegisterAccessIsRangeChecked := by
  intro r i v
  constructor
  · intro h
    exact ⟨regRead_of_lt h, r.set i.toNat v h, regWrite_of_lt h, regRead_set_self r h v,
      fun _ hne => regRead_set_of_ne r h v hne⟩
  · intro h
    exact ⟨regRead_of_ge h, regWrite_of_ge h⟩

end Sys2Proof.Machine
end

section
/-! SUPPORT. The fields of an opcode byte as numbers, the keys of the dispatch table, and the encoding as the first bytes of the
fetched window (30_encoding.md R45, R47, R51, R55), with the statements about them. -/

namespace Sys2Proof

/-- Bits 7..6 of a byte as a number (30_encoding.md R47). -/
theorem decodeFields_operandCount_toNat (op : Byte) : (decodeFields op).operandCount.toNat = op.toNat / 64 := by
  have hlt := op.isLt
  simp only [decodeFields, BitVec.extractLsb'_toNat, Nat.shiftRight_eq_div_pow]
  omega

theorem decodeFields_isAlu (op : Byte) : (decodeFields op).isAlu = decide (op.toNat / 32 % 2 = 1) :=
  Nat.testBit_eq_decide_div_mod_eq

theorem decodeFields_isPcSetting (op : Byte) : (decodeFields op).isPcSetting = decide (op.toNat / 16 % 2 = 1) :=
  Nat.testBit_eq_decide_div_mod_eq

theorem decodeFields_ident_toNat (op : Byte) : (decodeFields op).ident.toNat = op.toNat % 16 := by
  simp [decodeFields]

/-- The default increment is the operand count plus one: three bits hold the sum (30_encoding.md R48). -/
theorem increment_toNat (op : Byte) : (increment op).toNat = (decodeFields op).operandCount.toNat + 1 := by
  have hlt := (decodeFields op).operandCount.isLt
  simp only [decodeFields] at hlt ⊢
  simp only [increment, BitVec.toNat_add, BitVec.toNat_setWidth, BitVec.toNat_ofNat]
  omega

/-- Settles O6: the count, the two bits, the identifier and the increment are one lemma each; from 192 on the count is 3. -/
theorem decoderOutputsAreTheFields : Obligations.DecoderOutputsAreTheFields := by
  intro op
  have hcount := decodeFields_operandCount_toNat op
  have hinc : (decodeFields op).increment.toNat = op.toNat / 64 + 1 := by rw [← hcount]; exact increment_toNat op
  refine ⟨hcount, decodeFields_isAlu op, decodeFields_isPcSetting op, decodeFields_ident_toNat op, hinc, fun h => ?_⟩
  have hlt := op.isLt
  omega

/-- Settles O3: dispatch, the keys and the refusal are the decoder's laws. -/
theorem decodingIsAnExactMatchOfTheKeys : Obligations.DecodingIsAnExactMatchOfTheKeys :=
  ⟨fun _ _ => dispatch_eq_some_iff, fun _ _ => opcodeOf_injective,
    fun _ _ _ => decode_eq_error_iff.trans (and_iff_right rfl)⟩

theorem mem_allOps (o : Op) : o ∈ allOps := by cases o <;> decide

theorem dispatchTable_keys : dispatchTable.map Prod.fst = allOps.map opcodeOf := rfl

theorem mem_dispatchTable_keys {op : Byte} : op ∈ dispatchTable.map Prod.fst ↔ ∃ o, op = opcodeOf o := by
  simp [dispatchTable_keys, mem_allOps, eq_comm]

theorem dispatch_isSome_iff {op : Byte} : (dispatch op).isSome = true ↔ ∃ o, op = opcodeOf o := by
  simp only [Option.isSome_iff_exists, dispatch_eq_some_iff]

/-- Settles O4: the handlers are eight different ones, and different handlers have different keys. -/
theorem dispatchTableHasEightUniqueKeys : Obligations.DispatchTableHasEightUniqueKeys := by
  refine ⟨rfl, ?_, fun op => dispatch_isSome_iff.trans mem_dispatchTable_keys.symm⟩
  have hops : allOps.Nodup := by decide
  rw [dispatchTable_keys]
  exact hops.map fun _ _ => opcodeOf_injective

/-- The encoding of a decoded instruction is the window's first bytes, as many as the default increment says. -/
theorem encode_instr_eq_take (o : Op) (a b : Byte) :
    encode (o.instr a b) = [opcodeOf o, a, b].take (increment (opcodeOf o)).toNat := by cases o <;> rfl

theorem length_encode_instr (o : Op) (a b : Byte) : (encode (o.instr a b)).length = (increment (opcodeOf o)).toNat := by
  have hle : (increment (opcodeOf o)).toNat ≤ 3 := by cases o <;> decide
  rw [encode_instr_eq_take, List.length_take]
  exact Nat.min_eq_left hle

/-- The operand bytes a handler uses all stand in the encoding. -/
theorem instr_eq_of_encode_eq {o : Op} {a b a' b' : Byte} :
    encode (o.instr a b) = encode (o.instr a' b') → o.instr a b = o.instr a' b' := by
  cases o <;> simp [encode, Op.instr, Instr.op]

/-- A window that begins with an instruction's bytes decodes to it, whatever stands after them (30_encoding.md R45, R50). -/
theorem decode_of_encode_eq_take {o : Op} {a b a' b' : Byte}
    (h : encode (o.instr a b) = [opcodeOf o, a', b'].take (encode (o.instr a b)).length) :
    decode (opcodeOf o) a' b' = .ok (o.instr a b) := by
  rw [length_encode_instr, ← encode_instr_eq_take] at h
  rw [decode_opcodeOf, instr_eq_of_encode_eq h]

/-- Settles O2: the format table by handler, the fetch by its equation, and a decoded instruction through its handler. -/
theorem decodedLengthIsOperandCountPlusOne : Obligations.DecodedLengthIsOperandCountPlusOne := by
  refine ⟨fun o => ?count, fun o a b => ?format, fun s hpc => ?fetch, fun op a b i hdec => ?decoded⟩
  case count => cases o <;> rfl
  case format => rw [decode_opcodeOf]; cases o <;> rfl
  case fetch => rw [Machine.fetch_eq, if_pos hpc]
  case decoded =>
    obtain ⟨o, rfl, rfl⟩ := decode_eq_ok_iff.mp hdec
    have hlen := length_encode_instr o a b
    refine ⟨hlen.trans (increment_toNat _), hlen, ?_, fun a' b' => decode_of_encode_eq_take⟩
    rw [hlen, encode_instr_eq_take]

end Sys2Proof
end

section
/-! SUPPORT. The PC-update policy, one equation per case (40_execute_loop.md R70 to R72, R77), and what a running machine's step is
at a PC that cannot be fetched, at an unknown opcode and at an instruction (R67, R68, R73), with the statements about a redirect and
about the default advance. -/

namespace Sys2Proof.Machine

/-- The set with an address added, as the hardware's vector with that bit set (10_state.md R20). -/
theorem joAdd_eq_or_shiftLeft (jo : OriginSet) (p : PcWord) : joAdd jo p = jo ||| (1#256 <<< p.toNat) := by
  rw [joAdd, BitVec.twoPow_eq]

/-- A PC already in JO stops the machine whatever the handler answered (40_execute_loop.md R77). -/
theorem pcPolicy_of_joMem {s : State} (h : joMem s.jo s.pc = true) (op : Byte) (result : HandlerResult) :
    pcPolicy op result s = stop s := if_pos h

theorem pcPolicy_halt (op : Byte) (s : State) : pcPolicy op .halt s = stop s := by simp [pcPolicy]

theorem pcPolicy_redirect {s : State} (h : joMem s.jo s.pc = false) (op t : Byte) :
    pcPolicy op (.redirect t) s = redirectTo t s := by simp [pcPolicy, h]

theorem pcPolicy_noRedirect {s : State} (h : joMem s.jo s.pc = false) (op : Byte) :
    pcPolicy op .noRedirect s = advance op s := by simp [pcPolicy, h]

/-- Without a redirect the policy leaves JO as it was. -/
theorem pcPolicy_noRedirect_jo (op : Byte) (s : State) : (pcPolicy op .noRedirect s).jo = s.jo := by
  cases h : joMem s.jo s.pc with
  | true => rw [pcPolicy_of_joMem h]; rfl
  | false => rw [pcPolicy_noRedirect h]; rfl

@[simp] theorem redirectTo_pc_toNat (t : Byte) (s : State) : (redirectTo t s).pc.toNat = t.toNat := by
  have ht := t.isLt
  simp only [redirectTo, State.withPc_pc, BitVec.toNat_setWidth]
  omega

/-- The default increments of the eight keys as numbers (40_execute_loop.md R72). -/
theorem increment_opcodeOf_toNat (o : Op) : (increment (opcodeOf o)).toNat =
    match o with
    | .hlt => 1
    | .prn | .jmp | .jeq | .jne => 2
    | .ldi | .mul | .cmp => 3 := by
  rw [increment_opcodeOf]
  cases o <;> rfl

/-- From a fetchable PC the 9-bit sum of the default advance does not wrap (40_execute_loop.md R72). -/
theorem advance_pc_toNat {s : State} (hpc : s.pc.toNat ≤ 253) (op : Byte) :
    (advance op s).pc.toNat = s.pc.toNat + (increment op).toNat := by
  have hinc := (increment op).isLt
  simp only [advance, State.withPc_pc, BitVec.toNat_add, BitVec.toNat_setWidth]
  omega

theorem step_of_pc_ge {s : State} (hr : s.rs = .running) (hpc : 254 ≤ s.pc.toNat) :
    step s = .next (raise .outOfRange s) := by
  rcases step_running hr with ⟨-, h⟩ | ⟨hp, -⟩ | ⟨hp, -⟩
  · exact h
  · omega
  · omega

theorem step_of_dispatch_none {s : State} (hr : s.rs = .running) (hpc : s.pc.toNat ≤ 253)
    (hd : dispatch (s.mem.cell s.pc.toNat) = none) : step s = .next (raise .unknownOpcode s) := by
  rcases step_running hr with ⟨hp, -⟩ | ⟨-, -, h⟩ | ⟨-, o, ho, -⟩
  · omega
  · exact h
  · exact absurd ho (dispatch_eq_none_iff.mp hd o)

theorem step_of_instrAtPc {s : State} {i : Instr} (hr : s.rs = .running) (hpc : s.pc.toNat ≤ 253)
    (hi : instrAtPc s = .ok i) : step s = exec i s := by
  obtain ⟨o, ho, rfl⟩ := decode_eq_ok_iff.mp hi
  rcases step_running hr with ⟨hp, -⟩ | ⟨-, hno, -⟩ | ⟨-, o', ho', h⟩
  · omega
  · exact absurd ho (hno o)
  · rw [h, opcodeOf_injective (ho'.symm.trans ho)]

/-- Settles O27: the next state is `redirectTo t s`; JO by the membership rule of `joAdd`, and the next step finds PC = t. -/
theorem redirectRecordsTheOrigin : Obligations.RedirectRecordsTheOrigin := by
  intro s op t hpc hjo
  refine ⟨redirectTo t s, pcPolicy_redirect hjo op t, ?fields, fun q => ?origins, fun hr ht => ?range, fun hr ht hd => ?opcode⟩
  case fields => rw [BitVec.ofNat_toNat]; rfl
  case origins =>
    have hmem : joMem (redirectTo t s).jo q = (joMem s.jo q || decide (q = s.pc)) := joMem_joAdd s.jo s.pc q (by omega)
    simp [hmem]
  case range => exact step_of_pc_ge hr (by simpa using ht)
  case opcode =>
    refine step_of_dispatch_none hr (by simpa using ht) ?_
    rw [redirectTo_pc_toNat]
    exact hd

/-- Settles O28: the next state is `advance (opcodeOf o) s`, and the eight increments are at most 3. -/
theorem defaultAdvanceIsTheIncrement : Obligations.DefaultAdvanceIsTheIncrement := by
  intro s o hpc hjo
  have hinc : (increment (opcodeOf o)).toNat = (opcodeOf o).toNat / 64 + 1 := by
    rw [increment_toNat, decodeFields_operandCount_toNat]
  have hle : (increment (opcodeOf o)).toNat ≤ 3 := by cases o <;> decide
  have hsum := advance_pc_toNat hpc (opcodeOf o)
  refine ⟨advance (opcodeOf o) s, pcPolicy_noRedirect hjo _, rfl, by rw [hsum, hinc], ?_, by omega⟩
  exact hinc.symm.trans (increment_opcodeOf_toNat o)

end Sys2Proof.Machine
end

section
/-! SUPPORT. What the handler of each instruction answers the loop (40_execute_loop.md R69, R81; 43_jumps_halt.md R95 to R98), when
it completes, and which instructions can stand at a member of JO (R78), with the statement of the PC table and the one about a second
arrival. -/

namespace Sys2Proof.Machine

/-- The register a jump takes its target from; `none` for an instruction that is no jump (43_jumps_halt.md R95 to R97). -/
def jumpRegister : Instr → Option RegIndex
  | .jmp n | .jeq n | .jne n => some n
  | _ => none

/-- Whether an instruction proposes a target, for the FL it finds (40_execute_loop.md R81). -/
def jumpTaken : Instr → Byte → Bool
  | .jmp _, _ => true
  | .jeq _, fl => flE fl
  | .jne _, fl => !flE fl
  | _, _ => false

theorem handlerFor_of_jumpRegister {i : Instr} {n : RegIndex} (h : jumpRegister i = some n) :
    handlerFor i = handleJump (jumpTaken i) n := by
  cases i with
  | jmp | jeq | jne => cases h; rfl
  | ldi | prn | mul | cmp | hlt => cases h

/-- A jump whose register exists completes, with no effect but its result: the target or none (43_jumps_halt.md R95 to R97). -/
theorem handlerFor_jump_of_lt {i : Instr} {n : RegIndex} (hreg : jumpRegister i = some n) (hn : n.toNat < 9)
    (r : RegFile) (fl : Byte) : handlerFor i r fl =
      .ok ⟨r, fl, none, if jumpTaken i fl then .redirect (r[n.toNat]'hn) else .noRedirect⟩ := by
  rw [handlerFor_of_jumpRegister hreg, handleJump_eq, dif_pos hn]

/-- A jump completes only where its register exists. -/
theorem handlerFor_jump_result {i : Instr} {n : RegIndex} {r : RegFile} {fl : Byte} {o : HandlerOut}
    (hreg : jumpRegister i = some n) (h : handlerFor i r fl = .ok o) :
    ∃ hn : n.toNat < 9, o.result = if jumpTaken i fl then .redirect (r[n.toNat]'hn) else .noRedirect := by
  rw [handlerFor_of_jumpRegister hreg, handleJump_eq] at h
  split at h
  · cases h; exact ⟨_, rfl⟩
  · cases h

/-- Every completed handler but HLT's answers no redirect where it proposes no target. -/
theorem handlerFor_noRedirect {i : Instr} {r : RegFile} {fl : Byte} {o : HandlerOut} (h : handlerFor i r fl = .ok o)
    (hi : i ≠ .hlt) (hnot : jumpTaken i fl = false) : o.result = .noRedirect := by
  cases i with
  | ldi rd imm => rw [handlerFor, handleLdi_eq] at h; split_ifs at h; cases h; rfl
  | prn rs => rw [handlerFor, handlePrn_eq] at h; split_ifs at h; cases h; rfl
  | mul ra rb => rw [handlerFor, handleMul_eq] at h; split_ifs at h; cases h; rfl
  | cmp ra rb => rw [handlerFor, handleCmp_eq] at h; split_ifs at h; cases h; rfl
  | jmp n | jeq n | jne n =>
    obtain ⟨_, ho⟩ := handlerFor_jump_result rfl h
    simpa [hnot] using ho
  | hlt => exact absurd rfl hi

/-- A completed jump that proposes its target redirects to the value of a register that exists. -/
theorem handlerFor_redirect {i : Instr} {r : RegFile} {fl : Byte} {o : HandlerOut} {n : RegIndex}
    (h : handlerFor i r fl = .ok o) (hreg : jumpRegister i = some n) (htaken : jumpTaken i fl = true) :
    ∃ hn : n.toNat < 9, o.result = .redirect (r[n.toNat]'hn) := by
  simpa [htaken] using handlerFor_jump_result hreg h

theorem instr_wf_iff {i : Instr} : i.wf = true ↔ ∀ n ∈ i.registers, n.toNat < 9 := by
  simp [Instr.wf]

theorem wf_of_noFatal {i : Instr} {r : RegFile} (h : noFatal i r = true) : i.wf = true := Bool.and_elim_left h

theorem productFits_of_noFatal {i : Instr} {r : RegFile} (h : noFatal i r = true) : productFits i r = true :=
  Bool.and_elim_right h

theorem productFits_mul_iff {ra rb : RegIndex} {r : RegFile} (ha : ra.toNat < 9) (hb : rb.toNat < 9) :
    productFits (.mul ra rb) r = true ↔ (r[ra.toNat]'ha).toNat * (r[rb.toNat]'hb).toNat ≤ 255 := by
  simp only [productFits, regRead_of_lt ha, regRead_of_lt hb, decide_eq_true_eq]

/-- A handler whose register indices exist and whose product fits completes (60_exceptions.md R116 b, R118). -/
theorem handlerFor_of_noFatal {i : Instr} {r : RegFile} (h : noFatal i r = true) (fl : Byte) :
    ∃ o, handlerFor i r fl = .ok o := by
  have hreg := instr_wf_iff.mp (wf_of_noFatal h)
  cases i with
  | ldi rd imm => exact ⟨_, (handleLdi_eq rd imm r fl).trans (dif_pos (hreg rd (by simp [Instr.registers])))⟩
  | prn rs => exact ⟨_, (handlePrn_eq rs r fl).trans (dif_pos (hreg rs (by simp [Instr.registers])))⟩
  | mul ra rb =>
    have ha := hreg ra (by simp [Instr.registers])
    have hb := hreg rb (by simp [Instr.registers])
    refine ⟨_, (handleMul_eq ra rb r fl).trans ((dif_pos ⟨ha, hb⟩).trans (if_pos ?_))⟩
    exact (productFits_mul_iff ha hb).mp (productFits_of_noFatal h)
  | cmp ra rb =>
    have ha := hreg ra (by simp [Instr.registers])
    have hb := hreg rb (by simp [Instr.registers])
    exact ⟨_, (handleCmp_eq ra rb r fl).trans (dif_pos ⟨ha, hb⟩)⟩
  | jmp n | jeq n | jne n => exact ⟨_, handlerFor_jump_of_lt rfl (hreg n (by simp [Instr.registers])) r fl⟩
  | hlt => exact ⟨_, rfl⟩

theorem exec_of_ok {i : Instr} {s : State} {o : HandlerOut} (ho : handlerFor i s.regs s.fl = .ok o) :
    exec i s = .next (pcPolicy (opcodeOf i.op) o.result (commit o s)) := by
  rw [exec_eq_retire, retire_of_ok ho]

/-- The rows of the PC table without a redirect (40_execute_loop.md R81). -/
theorem exec_row_advance {i : Instr} {s : State} {o : HandlerOut} {k : Nat} (ho : handlerFor i s.regs s.fl = .ok o)
    (hpc : s.pc.toNat ≤ 253) (hjo : joMem s.jo s.pc = false) (hi : i ≠ .hlt) (hnot : jumpTaken i s.fl = false)
    (hk : (increment (opcodeOf i.op)).toNat = k) :
    let t := pcPolicy (opcodeOf i.op) o.result (commit o s)
    t.pc.toNat = s.pc.toNat + k ∧ t.jo = s.jo ∧ t.rs = s.rs := by
  have hjo' : joMem (commit o s).jo (commit o s).pc = false := hjo
  rw [handlerFor_noRedirect ho hi hnot, pcPolicy_noRedirect hjo', ← hk]
  exact ⟨advance_pc_toNat hpc _, rfl, rfl⟩

/-- The rows of the PC table with a redirect (40_execute_loop.md R81). -/
theorem exec_row_redirect {i : Instr} {s : State} {o : HandlerOut} {n : RegIndex}
    (ho : handlerFor i s.regs s.fl = .ok o) (hjo : joMem s.jo s.pc = false) (hreg : jumpRegister i = some n)
    (htaken : jumpTaken i s.fl = true) :
    let t := pcPolicy (opcodeOf i.op) o.result (commit o s)
    ∃ h : n.toNat < 9, t.pc.toNat = (s.regs[n.toNat]'h).toNat ∧ t.jo = s.jo ||| (1#256 <<< s.pc.toNat) ∧ t.rs = s.rs := by
  have hjo' : joMem (commit o s).jo (commit o s).pc = false := hjo
  obtain ⟨hn, hres⟩ := handlerFor_redirect ho hreg htaken
  rw [hres, pcPolicy_redirect hjo']
  exact ⟨hn, redirectTo_pc_toNat _ _, joAdd_eq_or_shiftLeft _ _, rfl⟩

theorem isJumpByte_opcodeOf_iff {o : Op} : isJumpByte (opcodeOf o) = true ↔ o = .jmp ∨ o = .jeq ∨ o = .jne := by
  cases o <;> decide

/-- Only a jump can stand at a member of JO (40_execute_loop.md R78). -/
theorem jump_of_joMem {s : State} {i : Instr} (hinv : Inv s) (hjo : joMem s.jo s.pc = true) (hi : instrAtPc s = .ok i) :
    ∃ n : Byte, i = .jmp n ∨ i = .jeq n ∨ i = .jne n := by
  obtain ⟨o, ho, rfl⟩ := decode_eq_ok_iff.mp hi
  obtain ⟨-, hjump, -⟩ := hinv.origins s.pc.toNat hjo
  rw [ho, isJumpByte_opcodeOf_iff] at hjump
  rcases hjump with rfl | rfl | rfl
  · exact ⟨_, .inl rfl⟩
  · exact ⟨_, .inr (.inl rfl)⟩
  · exact ⟨_, .inr (.inr rfl)⟩

/-- Settles O29: with PC in JO the policy stops; otherwise each instruction is a row with or without a redirect, JEQ and JNE one of
each, and HLT stops. -/
theorem nextPcTableOfEveryInstruction : Obligations.NextPcTableOfEveryInstruction := by
  refine ⟨fun _ _ => jump_of_joMem, fun s i hpc hsafe => ?_⟩
  obtain ⟨o, ho⟩ := handlerFor_of_noFatal hsafe s.fl
  refine ⟨_, exec_of_ok ho, fun hjo => ?_, fun hjo => ?_⟩
  · rw [pcPolicy_of_joMem (s := commit o s) hjo]
    exact ⟨rfl, rfl, rfl⟩
  · cases i with
    | ldi | mul | cmp => exact exec_row_advance (k := 3) ho hpc hjo (by simp) rfl (increment_opcodeOf_toNat _)
    | prn => exact exec_row_advance (k := 2) ho hpc hjo (by simp) rfl (increment_opcodeOf_toNat _)
    | jmp => exact exec_row_redirect ho hjo rfl rfl
    | jeq n =>
      obtain ⟨hn, _⟩ := handlerFor_jump_result rfl ho
      by_cases hE : s.fl.getLsbD 0 = true
      · obtain ⟨_, hpc', hjo', hrs⟩ := exec_row_redirect ho hjo rfl hE
        exact ⟨hn, hrs, (if_pos hE).mpr ⟨hpc', hjo'⟩⟩
      · obtain ⟨hpc', hjo', hrs⟩ := exec_row_advance (k := 2) ho hpc hjo (by simp) (Bool.eq_false_of_not_eq_true hE)
          (increment_opcodeOf_toNat _)
        exact ⟨hn, hrs, (if_neg hE).mpr ⟨hpc', hjo'⟩⟩
    | jne n =>
      obtain ⟨hn, _⟩ := handlerFor_jump_result rfl ho
      by_cases hE : s.fl.getLsbD 0 = true
      · obtain ⟨hpc', hjo', hrs⟩ := exec_row_advance (k := 2) ho hpc hjo (by simp) (congrArg not hE)
          (increment_opcodeOf_toNat _)
        exact ⟨hn, hrs, (if_pos hE).mpr ⟨hpc', hjo'⟩⟩
      · obtain ⟨_, hpc', hjo', hrs⟩ := exec_row_redirect ho hjo rfl (congrArg not (Bool.eq_false_of_not_eq_true hE))
        exact ⟨hn, hrs, (if_neg hE).mpr ⟨hpc', hjo'⟩⟩
    | hlt =>
      cases ho
      rw [pcPolicy_halt]
      exact ⟨rfl, rfl, rfl⟩

theorem commit_of_no_effect (s : State) (result : HandlerResult) : commit ⟨s.regs, s.fl, none, result⟩ s = s := by
  simp [commit, State.withRegs, State.withFl, State.withOut]

/-- An instruction that proposes no target and is not HLT leaves JO as it was, faulting or not. -/
theorem exec_jo_of_no_target {i : Instr} {s t : State} (h : exec i s = .next t) (hi : i ≠ .hlt)
    (hnot : jumpTaken i s.fl = false) : t.jo = s.jo := by
  rcases exec_cases h with ⟨k, -, rfl⟩ | ⟨o, ho, rfl⟩
  · rfl
  · rw [handlerFor_noRedirect ho hi hnot]
    exact pcPolicy_noRedirect_jo _ (commit o s)

/-- Settles O31: the jump at PC leaves the state to the policy as it was, and the policy stops; a jump not taken has no target. -/
theorem revisitedJumpHalts : Obligations.RevisitedJumpHalts := by
  constructor
  · intro s i n hr hpc hjo hi hjump hn
    have hreg : jumpRegister i = some n := by rcases hjump with rfl | rfl | rfl <;> rfl
    rw [step_of_instrAtPc hr hpc hi, exec_of_ok (handlerFor_jump_of_lt hreg hn s.regs s.fl),
      commit_of_no_effect, pcPolicy_of_joMem hjo]
    rfl
  · rintro s t i n hexec (⟨rfl, hE⟩ | ⟨rfl, hE⟩)
    · exact exec_jo_of_no_target hexec (by simp) hE
    · exact exec_jo_of_no_target hexec (by simp) (congrArg not hE)

end Sys2Proof.Machine
end

section
/-! SUPPORT. The next state of a completed instruction, whole, one equation per case of the PC-update policy, and of one that raises
a fatal condition (40_execute_loop.md R69 to R73), with the statement about LDI. -/

namespace Sys2Proof.Machine

/-- The default advance as arithmetic on numbers: PC plus the increment, in nine bits (40_execute_loop.md R72). -/
theorem advance_eq_withPc (op : Byte) (s : State) :
    advance op s = s.withPc (BitVec.ofNat 9 (s.pc.toNat + (increment op).toNat)) := by
  rw [advance, BitVec.ofNat_add, BitVec.ofNat_toNat, BitVec.ofNat_toNat, BitVec.setWidth_eq]

/-- A handler that keeps FL and emits nothing has its register file as its only effect. -/
theorem commit_of_regs (s : State) (r : RegFile) (result : HandlerResult) :
    commit ⟨r, s.fl, none, result⟩ s = s.withRegs r := by
  simp [commit, State.withRegs, State.withFl, State.withOut]

theorem exec_of_error {i : Instr} {s : State} {k : Fatal} (hk : handlerFor i s.regs s.fl = .error k) :
    exec i s = .next (raise k s) := by
  rw [exec_eq_retire, retire_of_error hk]

/-- At a member of JO the effects of a completed handler are kept and the machine halts in place (40_execute_loop.md R70, R77). -/
theorem exec_of_joMem {i : Instr} {s : State} {o : HandlerOut} (ho : handlerFor i s.regs s.fl = .ok o)
    (hjo : joMem s.jo s.pc = true) : exec i s = .next (stop (commit o s)) := by
  rw [exec_of_ok ho, pcPolicy_of_joMem (s := commit o s) hjo]

/-- Off JO a completed handler without a redirect is followed by the default advance (40_execute_loop.md R72). -/
theorem exec_of_noRedirect {i : Instr} {s : State} {o : HandlerOut} (ho : handlerFor i s.regs s.fl = .ok o)
    (hres : o.result = .noRedirect) (hjo : joMem s.jo s.pc = false) : exec i s =
      .next ((commit o s).withPc (BitVec.ofNat 9 (s.pc.toNat + (increment (opcodeOf i.op)).toNat))) := by
  rw [exec_of_ok ho, hres, pcPolicy_noRedirect (s := commit o s) hjo, advance_eq_withPc, commit_pc]

/-- Settles O15: the handler writes the slot and proposes no target, so off JO the default advance by 3 follows and at a member of
JO the stop; it raises OutOfRange where the slot does not exist. -/
theorem ldiLoadsTheImmediate : Obligations.LdiLoadsTheImmediate := by
  intro s n imm _
  have hok (h : n.toNat < 9) : handlerFor (.ldi n imm) s.regs s.fl = .ok ⟨s.regs.set n.toNat imm h, s.fl, none, .noRedirect⟩ :=
    (handleLdi_eq n imm s.regs s.fl).trans (dif_pos h)
  refine ⟨rfl, fun h => regRead_set_self s.regs h imm, fun h hjo => ?advance, fun h hjo => ?stop, fun h => ?fatal⟩
  case advance =>
    rw [exec_of_noRedirect (hok h) rfl hjo, commit_of_regs, increment_opcodeOf_toNat]
    rfl
  case stop =>
    rw [exec_of_joMem (hok h) hjo, commit_of_regs]
    rfl
  case fatal => exact exec_of_error ((handleLdi_eq n imm s.regs s.fl).trans (dif_neg (by omega)))

end Sys2Proof.Machine
end

section
/-! SUPPORT. What JMP and HLT answer the loop and which instruction answers a halt (43_jumps_halt.md R95, R98), how a step can end a
run successfully (40_execute_loop.md R70), and the statements about HLT and about JMP. -/

namespace Sys2Proof.Machine

/-- Off JO a completed handler with a target is followed by the redirect (40_execute_loop.md R71). -/
theorem exec_of_redirect {i : Instr} {s : State} {o : HandlerOut} {t : Byte} (ho : handlerFor i s.regs s.fl = .ok o)
    (hres : o.result = .redirect t) (hjo : joMem s.jo s.pc = false) :
    exec i s = .next (redirectTo t (commit o s)) := by
  rw [exec_of_ok ho, hres, pcPolicy_redirect (s := commit o s) hjo]

/-- A jump whose register does not exist raises OutOfRange, taken or not (43_jumps_halt.md R95 to R97, decision D25). -/
theorem handlerFor_jump_of_ge {i : Instr} {n : RegIndex} (hreg : jumpRegister i = some n) (hn : 9 ≤ n.toNat)
    (r : RegFile) (fl : Byte) : handlerFor i r fl = .error .outOfRange := by
  rw [handlerFor_of_jumpRegister hreg, handleJump_eq, dif_neg (by omega)]

theorem jumpRegister_of_jumpTaken {i : Instr} {fl : Byte} (h : jumpTaken i fl = true) :
    ∃ n, jumpRegister i = some n := by
  cases i with
  | jmp n | jeq n | jne n => exact ⟨n, rfl⟩
  | ldi | prn | mul | cmp | hlt => cases h

/-- HLT's handler alone answers the halt signal: every other one redirects or does not (43_jumps_halt.md R98). -/
theorem eq_hlt_of_result_halt {i : Instr} {r : RegFile} {fl : Byte} {o : HandlerOut} (h : handlerFor i r fl = .ok o)
    (hhalt : o.result = .halt) : i = .hlt := by
  by_contra hi
  cases htaken : jumpTaken i fl with
  | false => exact absurd (hhalt.symm.trans (handlerFor_noRedirect h hi htaken)) (by simp)
  | true =>
    obtain ⟨n, hreg⟩ := jumpRegister_of_jumpTaken htaken
    obtain ⟨hn, hres⟩ := handlerFor_redirect h hreg htaken
    exact absurd (hhalt.symm.trans hres) (by simp)

/-- The policy halts a running machine only at its two stop conditions (40_execute_loop.md R70). -/
theorem stop_condition_of_pcPolicy_halted {op : Byte} {result : HandlerResult} {s : State} (hr : s.rs = .running)
    (h : (pcPolicy op result s).rs = .halted) : joMem s.jo s.pc = true ∨ result = .halt := by
  rcases pcPolicy_cases op result s with ⟨hstop, -⟩ | ⟨-, t, -, he⟩ | ⟨-, -, he⟩
  · exact hstop
  · exact absurd (h.symm.trans ((congrArg State.rs he).trans hr)) (by simp)
  · exact absurd (h.symm.trans ((congrArg State.rs he).trans hr)) (by simp)

theorem instrAtPc_eq_hlt_of_cell {s : State} (h : s.mem.cell s.pc.toNat = 0x01#8) : instrAtPc s = .ok .hlt :=
  decode_eq_ok_iff.mpr ⟨.hlt, h, rfl⟩

/-- HLT has no effect but its stop, at any PC and whether or not PC is in JO (43_jumps_halt.md R98). -/
theorem exec_hlt (s : State) : exec .hlt s = .next (stop s) := by
  have hok : handlerFor .hlt s.regs s.fl = .ok ⟨s.regs, s.fl, none, .halt⟩ := rfl
  rw [exec_of_ok hok, pcPolicy_halt, commit_of_no_effect]

/-- A step that halts ran HLT or stood at a member of JO (43_jumps_halt.md R98). -/
theorem hlt_or_joMem_of_step_halted {s t : State} (h : step s = .next t) (ht : t.rs = .halted) :
    instrAtPc s = .ok .hlt ∨ joMem s.jo s.pc = true := by
  have hr : s.rs = .running := running_of_step h
  rcases step_cases h with ⟨k, rfl⟩ | ⟨-, o, out, ho, hout, rfl⟩
  · cases ht
  · rcases stop_condition_of_pcPolicy_halted (s := commit out s) hr ht with hjo | hhalt
    · exact .inr hjo
    · exact .inl (decode_eq_ok_iff.mpr ⟨o, ho, (eq_hlt_of_result_halt hout hhalt).symm⟩)

/-- Settles O22: HLT's handler has no effect but the halt signal and is the only one with that signal, so a halting step ran it or
met the jump-origin test; before the handler stands the fetch, which fails at 254 or more. -/
theorem hltHaltsTheMachine : Obligations.HltHaltsTheMachine := by
  refine ⟨rfl, exec_hlt, fun s hr hpc hcell => ?fetched, fun _ => step_of_pc_ge, fun _ => step_halted,
    fun _ _ => hlt_or_joMem_of_step_halted⟩
  case fetched =>
    rw [step_of_instrAtPc hr hpc (instrAtPc_eq_hlt_of_cell hcell)]
    exact exec_hlt s

/-- Settles O19: the handler has no effect but its target, so off JO the next state is the policy's redirect, whose next step the
statement about a redirect describes; at a member of JO the machine halts in place. -/
theorem jmpRedirectsOnce : Obligations.JmpRedirectsOnce := by
  intro s n hpc
  have hok (h : n.toNat < 9) := handlerFor_jump_of_lt (i := .jmp n) rfl h s.regs s.fl
  refine ⟨rfl, fun h hjo => ?redirect, fun h hjo => ?stop, fun h => ?fatal⟩
  case redirect =>
    obtain ⟨t, rfl, -, -, hrange, hopcode⟩ := redirectRecordsTheOrigin s (opcodeOf .jmp) (s.regs[n.toNat]'h) hpc hjo
    rw [pcPolicy_redirect hjo] at hrange hopcode
    refine ⟨_, ?fields, ?exec, hrange, hopcode⟩
    case fields => rw [BitVec.ofNat_toNat, ← joAdd_eq_or_shiftLeft]; rfl
    case exec => rw [exec_of_redirect (hok h) rfl hjo, commit_of_no_effect]
  case stop =>
    rw [exec_of_joMem (hok h) hjo, commit_of_no_effect]
    rfl
  case fatal => exact exec_of_error (handlerFor_jump_of_ge rfl h s.regs s.fl)

end Sys2Proof.Machine
end

section
/-! SUPPORT. Which instructions' handlers raise OutOfRange, and which steps take it (60_exceptions.md R115, R116), with the
statement about it. -/

namespace Sys2Proof.Machine

/-- A handler raises OutOfRange exactly when it accesses a register that does not exist; MUL's other fatal condition is another
one, and a jump's check does not depend on FL (60_exceptions.md R116 b, decision D25). -/
theorem handlerFor_eq_outOfRange_iff {i : Instr} {r : RegFile} {fl : Byte} :
    handlerFor i r fl = .error .outOfRange ↔ ∃ n ∈ i.registers, 9 ≤ n.toNat := by
  cases i with
  | ldi rd imm => simp [handlerFor, handleLdi_eq, Instr.registers]
  | prn rs => simp [handlerFor, handlePrn_eq, Instr.registers]
  | mul ra rb =>
    rw [handlerFor, handleMul_eq]
    split_ifs with hreg hfit
    · simp [Instr.registers, hreg]
    · simp [Instr.registers, hreg]
    · have hor : 9 ≤ ra.toNat ∨ 9 ≤ rb.toNat := by omega
      simp [Instr.registers, hor]
  | cmp ra rb => simp [handlerFor, handleCmp_eq, Instr.registers, imp_iff_not_or]
  | jmp n | jeq n | jne n =>
    rw [handlerFor_of_jumpRegister rfl, handleJump_eq]
    simp [Instr.registers]
  | hlt => simp [handlerFor, handleHlt, Instr.registers]

theorem raise_injective (s : State) : Function.Injective (raise · s) :=
  fun _ _ h => Option.some.inj (congrArg State.cause h)

/-- The policy itself never faults: it halts, or it leaves RS as it was (40_execute_loop.md R70 to R72). -/
theorem pcPolicy_rs_ne_faulted {s : State} (hs : s.rs ≠ .faulted) (op : Byte) (result : HandlerResult) :
    (pcPolicy op result s).rs ≠ .faulted := by
  rcases pcPolicy_cases op result s with ⟨-, h⟩ | ⟨-, t, -, h⟩ | ⟨-, -, h⟩
  · rw [h]; exact RunState.noConfusion
  · rw [h]; exact hs
  · rw [h]; exact hs

/-- An execution takes a fatal condition exactly when its handler raises that one: a completed handler's policy leaves RS other
than Faulted. -/
theorem exec_eq_raise_iff {i : Instr} {s : State} {k : Fatal} (hs : s.rs ≠ .faulted) :
    exec i s = .next (raise k s) ↔ handlerFor i s.regs s.fl = .error k := by
  refine ⟨fun h => ?_, exec_of_error⟩
  rcases exec_cases h with ⟨k', hk', he⟩ | ⟨o, -, he⟩
  · rwa [raise_injective s he]
  · exact absurd (congrArg State.rs he).symm (pcPolicy_rs_ne_faulted (s := commit o s) hs _ _)

theorem step_of_instrAtPc_error {s : State} {e : DecodeError} (hr : s.rs = .running) (hpc : s.pc.toNat ≤ 253)
    (he : instrAtPc s = .error e) : step s = .next (raise .unknownOpcode s) :=
  step_of_dispatch_none hr hpc (dispatch_eq_none_iff.mpr (decode_eq_error_iff.mp he).2)

/-- Settles O33: above 253 the fetch raises it; below, an unknown opcode is another condition, and a decoded instruction takes it
exactly when its handler raises it. -/
theorem outOfRangeExactlyWhen : Obligations.OutOfRangeExactlyWhen := by
  refine ⟨fun a b => ⟨rfl, rfl, rfl, rfl, rfl, rfl, rfl, rfl⟩, fun s hr => ?_⟩
  change step s = .next (raise .outOfRange s) ↔ _
  rcases Nat.lt_or_ge 253 s.pc.toNat with hpc | hpc
  · exact iff_of_true (step_of_pc_ge hr hpc) (.inl hpc)
  rw [or_iff_right (by omega), and_iff_right hpc]
  cases hi : instrAtPc s with
  | error e =>
    rw [step_of_instrAtPc_error hr hpc hi]
    exact iff_of_false (fun h => Fatal.noConfusion (raise_injective s (Host.Outcome.next.inj h))) (by simp)
  | ok i =>
    have hs : s.rs ≠ .faulted := by simp [hr]
    rw [step_of_instrAtPc hr hpc hi, exec_eq_raise_iff hs, handlerFor_eq_outOfRange_iff]
    simp

end Sys2Proof.Machine
end

section
/-! SUPPORT. When a step completes, in the terms of the instruction at PC (70_reset_and_hazards.md R143), and what `load` of an
accepted image leaves (R135), with the statements about a program's obligations, about the entry and about two runs of one image. -/

namespace Sys2Proof.Machine

/-- The product condition speaks of MUL alone, and only where both its registers exist (42_alu.md R90). -/
theorem productFits_iff {i : Instr} {r : RegFile} :
    productFits i r = true ↔ ∀ a b : Byte, i = .mul a b → ∀ u v : Byte, regRead r a = .ok u → regRead r b = .ok v →
      u.toNat * v.toNat ≤ 255 := by
  cases i with
  | mul ra rb =>
    cases ha : regRead r ra <;> cases hb : regRead r rb <;> simp [productFits, ha, hb]
  | ldi | prn | cmp | jmp | jeq | jne | hlt => simp [productFits]

/-- A handler completes exactly when its register indices exist and its product fits (60_exceptions.md R116 b, R118). -/
theorem handlerFor_ok_iff_noFatal {i : Instr} {r : RegFile} {fl : Byte} :
    (∃ o, handlerFor i r fl = .ok o) ↔ noFatal i r = true := by
  refine ⟨fun ⟨o, ho⟩ => ?_, fun h => handlerFor_of_noFatal h fl⟩
  have hreg : ∀ n ∈ i.registers, n.toNat < 9 := fun n hn => Nat.lt_of_not_le fun hge => by
    have herr : handlerFor i r fl = .error .outOfRange := handlerFor_eq_outOfRange_iff.mpr ⟨n, hn, hge⟩
    simp [ho] at herr
  have hfit : productFits i r = true := by
    cases i with
    | mul ra rb =>
      rw [handlerFor, handleMul_eq] at ho
      split_ifs at ho with h hle
      exact (productFits_mul_iff h.1 h.2).mpr hle
    | ldi | prn | cmp | jmp | jeq | jne | hlt => rfl
  rw [noFatal, instr_wf_iff.mpr hreg, hfit, Bool.and_self]

/-- An execution leaves RS other than Faulted exactly when its handler raises no fatal condition. -/
theorem exec_completes_iff {i : Instr} {s : State} (hs : s.rs ≠ .faulted) :
    (∃ t, exec i s = .next t ∧ t.rs ≠ .faulted) ↔ noFatal i s.regs = true := by
  rw [← handlerFor_ok_iff_noFatal (fl := s.fl)]
  constructor
  · rintro ⟨t, hexec, ht⟩
    rcases exec_cases hexec with ⟨k, -, rfl⟩ | ⟨o, ho, -⟩
    · exact absurd (raise_rs k s) ht
    · exact ⟨o, ho⟩
  · rintro ⟨o, ho⟩
    exact ⟨_, exec_of_ok ho, pcPolicy_rs_ne_faulted (s := commit o s) hs _ _⟩

/-- A running machine's step completes exactly when it fetches, decodes and executes without a fatal condition. -/
theorem step_completes_iff {s : State} (hr : s.rs = .running) :
    (∃ t, step s = .next t ∧ t.rs ≠ .faulted) ↔
      s.pc.toNat ≤ 253 ∧ ∃ i, instrAtPc s = .ok i ∧ noFatal i s.regs = true := by
  rcases Nat.lt_or_ge 253 s.pc.toNat with hpc | hpc
  · simp [step_of_pc_ge hr hpc, Nat.not_le.mpr hpc]
  cases hi : instrAtPc s with
  | error e => simp [step_of_instrAtPc_error hr hpc hi]
  | ok i =>
    rw [step_of_instrAtPc hr hpc hi, exec_completes_iff (by simp [hr])]
    simp [hpc]

/-- Settles O36: a step completes exactly when it fetches and decodes and its handler raises nothing, which are the conditions
listed; 0x00 is no key; and HLT and a member of JO are the two ways to halt. -/
theorem programObligationsAreExactlyNoFault : Obligations.ProgramObligationsAreExactlyNoFault := by
  refine ⟨fun s hr => ?completes, fun s hr hpc hfill => ?fill, fun _ _ => hlt_or_joMem_of_step_halted⟩
  case completes =>
    simp only [step_completes_iff hr, noFatal, Bool.and_eq_true, instr_wf_iff, productFits_iff, Nat.lt_succ_iff]
  case fill =>
    have hnone : dispatch (s.mem.cell s.pc.toNat) = none := by rw [hfill]; decide
    exact step_of_dispatch_none hr hpc hnone

/-- An accepted image determines the loaded state whole: the state before the load leaves no trace (50_interfaces.md R109,
70_reset_and_hazards.md R135). -/
theorem load_of_length_le {image : List Byte} (h : image.length ≤ 256) (s : State) :
    load image s = (.loaded, State.reset.withMem (imageMemory image)) := if_pos (decide_eq_true h)

/-- Settles O11: a load changes the reset state in its memory alone. -/
theorem executionBeginsAtAddressZero : Obligations.ExecutionBeginsAtAddressZero := by
  refine ⟨⟨rfl, rfl⟩, fun image s h => ?_⟩
  rw [load_of_length_le h]
  exact ⟨rfl, rfl⟩

/-- Settles O14: the two loaded states are one state. -/
theorem sameImageGivesTheSameRun : Obligations.SameImageGivesTheSameRun := by
  intro image s s' h n
  rw [load_of_length_le h s, load_of_length_le h s']
  exact ⟨rfl, rfl, rfl⟩

end Sys2Proof.Machine
end

section
/-! SUPPORT. An instruction's bytes and the window that decodes to it, in both directions (30_encoding.md R45, R50, R55), with the
statements about decoding an encoding, about the layout of the opcode bytes and about the words of the table in 30_encoding.md section 6. -/

namespace Sys2Proof

/-- Settles O1: the window of an encoding is its opcode and two bytes, of which its handler takes its operands: both, the first or
none. -/
theorem decodeOfEncodeIsTheInstruction : Obligations.DecodeOfEncodeIsTheInstruction := by
  intro i x y rest
  cases i with
  | ldi rd imm => exact decode_opcodeOf .ldi rd imm
  | mul ra rb => exact decode_opcodeOf .mul ra rb
  | cmp ra rb => exact decode_opcodeOf .cmp ra rb
  | prn rs => exact decode_opcodeOf .prn rs x
  | jmp rt => exact decode_opcodeOf .jmp rt x
  | jeq rt => exact decode_opcodeOf .jeq rt x
  | jne rt => exact decode_opcodeOf .jne rt x
  | hlt => exact decode_opcodeOf .hlt x y

/-- Settles O5: the length is the operand count plus one, and the two single bits are read off the eight keys. -/
theorem opcodeBytesMeetTheLayout : Obligations.OpcodeBytesMeetTheLayout := by
  refine fun o => ⟨?count, ?jumps, ?multiply⟩
  case count =>
    rw [length_encode_instr, increment_toNat, decodeFields_operandCount_toNat, Nat.add_sub_cancel]
  case jumps => cases o <;> decide
  case multiply => rintro rfl; decide

/-- The fill byte is no key (30_encoding.md section 5). -/
theorem zero_ne_opcodeOf (o : Op) : 0x00#8 ≠ opcodeOf o := by cases o <;> decide

/-- Settles O7: each word's first byte is its handler's key, and the fill byte is none of the eight. -/
theorem syntaxTableWordsDecode : Obligations.SyntaxTableWordsDecode := fun a b x y =>
  ⟨decode_opcodeOf .ldi a b, decode_opcodeOf .prn a x, decode_opcodeOf .mul a b, decode_opcodeOf .cmp a b,
    decode_opcodeOf .jmp a x, decode_opcodeOf .jeq a x, decode_opcodeOf .jne a x, decode_opcodeOf .hlt x y,
    (decode_eq_error_iff (a := a) (b := b)).mpr ⟨rfl, zero_ne_opcodeOf⟩⟩

theorem exists_eq_instr (i : Instr) : ∃ o a b, i = Op.instr o a b := by
  cases i with
  | ldi rd imm => exact ⟨.ldi, rd, imm, rfl⟩
  | mul ra rb => exact ⟨.mul, ra, rb, rfl⟩
  | cmp ra rb => exact ⟨.cmp, ra, rb, rfl⟩
  | prn rs => exact ⟨.prn, rs, 0, rfl⟩
  | jmp rt => exact ⟨.jmp, rt, 0, rfl⟩
  | jeq rt => exact ⟨.jeq, rt, 0, rfl⟩
  | jne rt => exact ⟨.jne, rt, 0, rfl⟩
  | hlt => exact ⟨.hlt, 0, 0, rfl⟩

theorem length_encode_le (i : Instr) : (encode i).length ≤ 3 := by
  cases i <;> simp [encode]

theorem encode_getElem?_zero (i : Instr) : (encode i)[0]? = some (opcodeOf i.op) := by
  cases i <;> rfl

theorem window_getElem? (f : Nat → Byte) {k : Nat} (hk : k < 3) : [f 0, f 1, f 2][k]? = some (f k) := by
  interval_cases k <;> rfl

/-- Bytes decode to an instruction exactly when they begin with its encoding, whatever stands after it (30_encoding.md R45, R50). -/
theorem decode_eq_ok_iff_encode {f : Nat → Byte} {i : Instr} :
    decode (f 0) (f 1) (f 2) = .ok i ↔ ∀ k < (encode i).length, (encode i)[k]? = some (f k) := by
  have hle := length_encode_le i
  constructor
  · intro h k hk
    obtain ⟨o, ho, rfl⟩ := decode_eq_ok_iff.mp h
    rw [length_encode_instr] at hk hle
    rw [encode_instr_eq_take, ← ho, List.getElem?_take_of_lt (ho ▸ hk), window_getElem? f (by omega)]
  · intro h
    obtain ⟨o, a, b, rfl⟩ := exists_eq_instr i
    have hop : opcodeOf o = f 0 := by
      have h0 := h 0 (by rw [length_encode_instr, increment_toNat]; omega)
      rwa [encode_getElem?_zero, Op.instr_op, Option.some.injEq] at h0
    rw [← hop]
    refine decode_of_encode_eq_take (List.ext_getElem? fun k => ?_)
    rw [hop]
    rcases Nat.lt_or_ge k (encode (o.instr a b)).length with hk | hk
    · rw [h k hk, List.getElem?_take_of_lt hk, window_getElem? f (by omega)]
    · rw [List.getElem?_eq_none hk, List.getElem?_eq_none (by simp; omega)]

end Sys2Proof
end

section
/-! SUPPORT. What a cell holds after an image or a table word was written (50_interfaces.md R109), and the reset state under a
canonical memory, with the statements about reads, reset and load. -/

namespace Sys2Proof.Machine

/-- Settles O9: the read tests its address, and the fetch is its equation. -/
theorem memoryReadIsBoundsChecked : Obligations.MemoryReadIsBoundsChecked := by
  refine ⟨fun m a => ?_, fetch_eq⟩
  simp only [memRead, Config.memSize, Nat.lt_succ_iff]

/-- Settles O10: every slot is the one reset value, and an empty memory reads as the fill. -/
theorem resetStateIsTheTable : Obligations.ResetStateIsTheTable :=
  ⟨rfl, rfl, rfl, rfl, rfl, rfl, rfl, fun _ _ => Vector.getElem_replicate _, Memory.cell_nil⟩

/-- Settles O13. -/
theorem oversizedImageIsRefused : Obligations.OversizedImageIsRefused := by
  intro image s h
  have hwf : imageWf image = false := decide_eq_false (Nat.not_le.mpr h)
  rw [load, hwf]
  rfl

/-- From the address an image is written at, a cell holds the image's byte where there is one, and else what it held. -/
theorem writeImage_cell_of_ge {image : List Byte} :
    ∀ {a c : Nat} {m : Memory}, m.wf = true → a + image.length ≤ 256 → a ≤ c →
      (writeImage a image m).cell c = image[c - a]?.getD (m.cell c) := by
  induction image with
  | nil => intros; rfl
  | cons b rest ih =>
    intro a c m h hl hc
    rw [List.length_cons] at hl
    have hput : (m.put a b).wf = true := Memory.put_wf h (by omega)
    rw [writeImage]
    rcases Nat.eq_or_lt_of_le hc with rfl | hlt
    · rw [writeImage_cell_of_lt hput (by omega) (Nat.lt_succ_self a), Memory.cell_put h]
      simp
    · rw [ih hput (by omega) hlt, Memory.cell_put h, if_neg (by omega), show c - a = c - (a + 1) + 1 by omega,
        List.getElem?_cons_succ]

theorem imageMemory_wf {image : List Byte} (h : image.length ≤ 256) : (imageMemory image).wf = true :=
  writeImage_wf reset_mem_wf (by omega)

/-- Settles O12: the loaded state is the reset state with the image's memory, whose cells the rule of a written image describes. -/
theorem loadHoldsTheImageAndResetsTheRest : Obligations.LoadHoldsTheImageAndResetsTheRest := by
  refine fun image s h => ⟨imageMemory image, load_of_length_le h s, imageMemory_wf h, fun a => ?_⟩
  have hcell := writeImage_cell_of_ge (c := a) reset_mem_wf (by omega : 0 + image.length ≤ 256) (Nat.zero_le a)
  exact hcell.trans List.getD_eq_getElem?_getD.symm

/-- The reset state meets the invariant with any canonical memory: its JO is empty. -/
theorem inv_reset_withMem {m : Memory} (h : m.wf = true) : Inv (State.reset.withMem m) where
  mem_wf := h
  pc_le := Nat.zero_le _
  sp_sentinel := rfl
  fl_one_hot := .inl rfl
  cause_iff := by simp [State.reset]
  origins p hp := by simp [State.reset] at hp

/-- Settles O51: the reset state is itself with its empty memory. -/
theorem invariantHoldsAtReset : Obligations.InvariantHoldsAtReset := inv_reset_withMem reset_mem_wf

/-- Settles O52: a load is the reset state with the image's memory. -/
theorem loadEstablishesTheInvariant : Obligations.LoadEstablishesTheInvariant := by
  intro image s h
  rw [load_of_length_le h]
  exact inv_reset_withMem (imageMemory_wf h)

/-- The three cells of a placed table word hold its bytes. -/
theorem withFetchWord_cell {s : State} (h : s.mem.wf = true) (hpc : s.pc.toNat ≤ 253) (nbits w : Nat) {k : Nat}
    (hk : k < 3) : (s.withFetchWord nbits w).mem.cell (s.pc.toNat + k) = tableWordByte nbits w k := by
  have h0 : (s.mem.put s.pc.toNat (tableWordByte nbits w 0)).wf = true := Memory.put_wf h (by omega)
  rw [State.withFetchWord, State.withMem_mem, Memory.cell_put (Memory.put_wf h0 (by omega)), Memory.cell_put h0,
    Memory.cell_put h]
  interval_cases k <;> simp

end Sys2Proof.Machine
end

section
/-! SUPPORT. What each completed handler answers, whole (41_load_print.md, 42_alu.md, 43_jumps_halt.md), and the fields its effects
fix in the next state (40_execute_loop.md R69), with the frames of the instructions and of the step. -/

namespace Sys2Proof.Machine

theorem handlerFor_ldi_ok {d x : Byte} {r : RegFile} {fl : Byte} {o : HandlerOut}
    (h : handlerFor (.ldi d x) r fl = .ok o) : ∃ hd : d.toNat < 9, o = ⟨r.set d.toNat x hd, fl, none, .noRedirect⟩ := by
  rw [handlerFor, handleLdi_eq] at h
  split at h
  · cases h; exact ⟨_, rfl⟩
  · cases h

theorem handlerFor_prn_ok {n : Byte} {r : RegFile} {fl : Byte} {o : HandlerOut} (h : handlerFor (.prn n) r fl = .ok o) :
    ∃ hn : n.toNat < 9, o = ⟨r, fl, some (r[n.toNat]'hn), .noRedirect⟩ := by
  rw [handlerFor, handlePrn_eq] at h
  split at h
  · cases h; exact ⟨_, rfl⟩
  · cases h

theorem handlerFor_mul_ok {a b : Byte} {r : RegFile} {fl : Byte} {o : HandlerOut}
    (h : handlerFor (.mul a b) r fl = .ok o) : ∃ (ha : a.toNat < 9) (hb : b.toNat < 9),
      (r[a.toNat]'ha).toNat * (r[b.toNat]'hb).toNat ≤ 255 ∧
      o = ⟨r.set a.toNat (BitVec.ofNat 8 ((r[a.toNat]'ha).toNat * (r[b.toNat]'hb).toNat)) ha, fl, none, .noRedirect⟩ := by
  rw [handlerFor, handleMul_eq] at h
  split at h
  next hreg =>
    split at h
    next hfit => cases h; exact ⟨hreg.1, hreg.2, hfit, rfl⟩
    next => cases h
  next => cases h

theorem handlerFor_cmp_ok {a b : Byte} {r : RegFile} {fl : Byte} {o : HandlerOut}
    (h : handlerFor (.cmp a b) r fl = .ok o) : ∃ (ha : a.toNat < 9) (hb : b.toNat < 9),
      o = ⟨r, compareFlags (r[a.toNat]'ha) (r[b.toNat]'hb), none, .noRedirect⟩ := by
  rw [handlerFor, handleCmp_eq] at h
  split at h
  next hreg => cases h; exact ⟨hreg.1, hreg.2, rfl⟩
  next => cases h

theorem handlerFor_jump_ok {i : Instr} {n : RegIndex} {r : RegFile} {fl : Byte} {o : HandlerOut}
    (hreg : jumpRegister i = some n) (h : handlerFor i r fl = .ok o) : ∃ result, o = ⟨r, fl, none, result⟩ := by
  rw [handlerFor_of_jumpRegister hreg, handleJump_eq] at h
  split at h
  · cases h; exact ⟨_, rfl⟩
  · cases h

/-- Only CMP's handler writes FL, and it leaves one flag set (42_alu.md R91). -/
theorem handlerFor_fl {i : Instr} {r : RegFile} {fl : Byte} {o : HandlerOut} (h : handlerFor i r fl = .ok o) :
    ((∀ a b, i ≠ .cmp a b) ∧ o.fl = fl) ∨
      (∃ a b, i = .cmp a b) ∧ (o.fl = 0x01#8 ∨ o.fl = 0x02#8 ∨ o.fl = 0x04#8) := by
  cases i with
  | ldi d x => obtain ⟨_, rfl⟩ := handlerFor_ldi_ok h; exact .inl ⟨by simp, rfl⟩
  | prn n => obtain ⟨_, rfl⟩ := handlerFor_prn_ok h; exact .inl ⟨by simp, rfl⟩
  | mul a b => obtain ⟨_, _, -, rfl⟩ := handlerFor_mul_ok h; exact .inl ⟨by simp, rfl⟩
  | cmp a b =>
    obtain ⟨ha, hb, rfl⟩ := handlerFor_cmp_ok h
    refine .inr ⟨⟨a, b, rfl⟩, ?_⟩
    rcases compareFlags_cases (r[a.toNat]'ha) (r[b.toNat]'hb) with ⟨-, hf⟩ | ⟨-, hf⟩ | ⟨-, hf⟩
    · exact .inl hf
    · exact .inr (.inr hf)
    · exact .inr (.inl hf)
  | jmp n | jeq n | jne n => obtain ⟨_, rfl⟩ := handlerFor_jump_ok rfl h; exact .inl ⟨by simp, rfl⟩
  | hlt => cases h; exact .inl ⟨by simp, rfl⟩

/-- Only PRN's handler emits, and it emits its register's value (41_load_print.md R86). -/
theorem handlerFor_emit {i : Instr} {r : RegFile} {fl : Byte} {o : HandlerOut} (h : handlerFor i r fl = .ok o) :
    o.emit = none ∨ ∃ (n : Byte) (hn : n.toNat < 9), i = .prn n ∧ o.emit = some (r[n.toNat]'hn) := by
  cases i with
  | ldi d x => obtain ⟨_, rfl⟩ := handlerFor_ldi_ok h; exact .inl rfl
  | prn n => obtain ⟨hn, rfl⟩ := handlerFor_prn_ok h; exact .inr ⟨n, hn, rfl, rfl⟩
  | mul a b => obtain ⟨_, _, -, rfl⟩ := handlerFor_mul_ok h; exact .inl rfl
  | cmp a b => obtain ⟨_, _, rfl⟩ := handlerFor_cmp_ok h; exact .inl rfl
  | jmp n | jeq n | jne n => obtain ⟨_, rfl⟩ := handlerFor_jump_ok rfl h; exact .inl rfl
  | hlt => cases h; exact .inl rfl

/-- A completed handler that redirects is a jump's that is taken, and the target is its register's value. -/
theorem jump_of_result_redirect {i : Instr} {r : RegFile} {fl t : Byte} {o : HandlerOut} (h : handlerFor i r fl = .ok o)
    (hres : o.result = .redirect t) :
    ∃ n, jumpRegister i = some n ∧ jumpTaken i fl = true ∧ ∃ hn : n.toNat < 9, t = r[n.toNat]'hn := by
  cases htaken : jumpTaken i fl with
  | true =>
    obtain ⟨n, hreg⟩ := jumpRegister_of_jumpTaken htaken
    obtain ⟨hn, ht⟩ := handlerFor_redirect h hreg htaken
    exact ⟨n, hreg, rfl, hn, HandlerResult.redirect.inj (hres.symm.trans ht)⟩
  | false =>
    have hi : i ≠ .hlt := by
      rintro rfl
      cases h
      cases hres
    exact absurd (hres.symm.trans (handlerFor_noRedirect h hi htaken)) (by simp)

/-- The fields of the next state that a completed handler's effects fix, whatever the PC-update policy then does. -/
structure Completed (o : HandlerOut) (s t : State) : Prop where
  mem : t.mem = s.mem
  regs : t.regs = o.regs
  sp : t.sp = s.sp
  fl : t.fl = o.fl
  cause : t.cause = s.cause
  out : t.out = s.out ++ o.emit.toList

theorem completed_pcPolicy (op : Byte) (o : HandlerOut) (s : State) :
    Completed o s (pcPolicy op o.result (commit o s)) := by
  obtain ⟨hmem, hregs, hsp, hfl, hcause, hout⟩ := pcPolicy_frame op o.result (commit o s)
  exact ⟨hmem, hregs, hsp, hfl, hcause, hout⟩

theorem exec_completed {i : Instr} {s t : State} (h : exec i s = .next t) :
    (∃ k, t = raise k s) ∨ ∃ o, handlerFor i s.regs s.fl = .ok o ∧ Completed o s t := by
  rcases exec_cases h with ⟨k, -, rfl⟩ | ⟨o, ho, rfl⟩
  · exact .inl ⟨k, rfl⟩
  · exact .inr ⟨o, ho, completed_pcPolicy _ o s⟩

theorem instrAtPc_of_opcode {s : State} {o : Op} (ho : s.mem.cell s.pc.toNat = opcodeOf o) :
    instrAtPc s = .ok (o.instr (s.mem.cell (s.pc.toNat + 1)) (s.mem.cell (s.pc.toNat + 2))) :=
  decode_eq_ok_iff.mpr ⟨o, ho, rfl⟩

theorem step_completed {s t : State} (h : step s = .next t) :
    (∃ k, t = raise k s) ∨
      ∃ i o, instrAtPc s = .ok i ∧ handlerFor i s.regs s.fl = .ok o ∧ t.rs ≠ .faulted ∧ Completed o s t := by
  have hr : s.rs ≠ .faulted := by simp [running_of_step h]
  rcases step_cases h with ⟨k, rfl⟩ | ⟨-, o, out, ho, hout, rfl⟩
  · exact .inl ⟨k, rfl⟩
  · exact .inr ⟨_, out, instrAtPc_of_opcode ho, hout, pcPolicy_rs_ne_faulted (s := commit out s) hr _ _,
      completed_pcPolicy _ out s⟩

/-- Settles O44: a fatal condition keeps both fields, and no handler's effects reach them. -/
theorem stepKeepsMemoryAndStackPointer : Obligations.StepKeepsMemoryAndStackPointer := by
  intro s t h
  rcases step_completed h with ⟨k, rfl⟩ | ⟨i, o, -, -, -, hc⟩
  · exact ⟨rfl, fun _ => rfl, rfl⟩
  · exact ⟨hc.mem, fun a => by rw [hc.mem], hc.sp⟩

/-- Settles O37: a step that faulted is no completed one, so it took a fatal condition. -/
theorem faultsArePrecise : Obligations.FaultsArePrecise := by
  intro s t h ht
  rcases step_completed h with ⟨k, rfl⟩ | ⟨i, o, -, -, hne, -⟩
  · exact ⟨k, rfl⟩
  · exact absurd ht hne

/-- Settles O45: FL is what the completed handler answered, which only CMP's changes. -/
theorem onlyCompareWritesTheFlags : Obligations.OnlyCompareWritesTheFlags := by
  intro s t h
  rcases step_completed h with ⟨k, rfl⟩ | ⟨i, o, hi, ho, hne, hc⟩
  · exact ⟨fun hfl => absurd rfl hfl, fun _ _ _ hne => absurd rfl hne⟩
  · rw [hc.fl, hi]
    rcases handlerFor_fl ho with ⟨hcmp, hfl⟩ | ⟨⟨a, b, rfl⟩, hflag⟩
    · exact ⟨fun hne => absurd hfl hne, fun a b hab => absurd (Except.ok.inj hab) (hcmp a b)⟩
    · exact ⟨fun _ => ⟨hne, a, b, rfl⟩, fun _ _ _ _ => hflag⟩

/-- Settles O47: OUT grows by what the completed handler emits, and only PRN's emits. -/
theorem onlyPrintWritesTheOutput : Obligations.OnlyPrintWritesTheOutput := by
  intro s t h
  rcases step_completed h with ⟨k, rfl⟩ | ⟨i, o, hi, ho, -, hc⟩
  · exact .inl rfl
  · rw [hc.out]
    rcases handlerFor_emit ho with hnone | ⟨n, hn, rfl, hsome⟩
    · exact .inl (by simp [hnone])
    · exact .inr ⟨n, hn, hi, by simp [hsome]⟩

/-- Settles O40: LDI's and MUL's handlers write their one slot and answer no target. -/
theorem frameOfTheRegisterWriters : Obligations.FrameOfTheRegisterWriters := by
  intro s t i d x hi h
  have hjo : t.jo = s.jo := by rcases hi with rfl | rfl <;> exact exec_jo_of_no_target h (by simp) rfl
  rcases exec_completed h with ⟨k, rfl⟩ | ⟨o, ho, hc⟩
  · exact ⟨fun _ _ _ => rfl, rfl, rfl, rfl, rfl, fun _ => rfl, .inr ⟨rfl, rfl, rfl⟩⟩
  · obtain ⟨hd, v, rfl⟩ : ∃ (hd : d.toNat < 9) (v : Byte), o = ⟨s.regs.set d.toNat v hd, s.fl, none, .noRedirect⟩ := by
      rcases hi with rfl | rfl
      · obtain ⟨hd, ho⟩ := handlerFor_ldi_ok ho
        exact ⟨hd, x, ho⟩
      · obtain ⟨hd, _, -, ho⟩ := handlerFor_mul_ok ho
        exact ⟨hd, _, ho⟩
    refine ⟨fun j hj hne => ?_, hc.fl, hc.sp, hjo, by simp [hc.out], fun a => by rw [hc.mem], .inl hc.cause⟩
    simp only [hc.regs]
    exact Vector.getElem_set_ne hd hj hne.symm

/-- Settles O41: CMP's handler keeps the register file, emits nothing and answers no target. -/
theorem frameOfCompare : Obligations.FrameOfCompare := by
  intro s t a b h
  have hjo : t.jo = s.jo := exec_jo_of_no_target h (by simp) rfl
  rcases exec_completed h with ⟨k, rfl⟩ | ⟨o, ho, hc⟩
  · exact ⟨fun _ _ => rfl, rfl, rfl, rfl, fun _ => rfl, .inr ⟨rfl, rfl, rfl⟩⟩
  · obtain ⟨_, _, rfl⟩ := handlerFor_cmp_ok ho
    exact ⟨fun j hj => by rw [hc.regs], hc.sp, hjo, by simp [hc.out], fun c => by rw [hc.mem], .inl hc.cause⟩

/-- Settles O42: PRN's handler keeps the register file and FL and answers no target. -/
theorem frameOfPrint : Obligations.FrameOfPrint := by
  intro s t n h
  have hjo : t.jo = s.jo := exec_jo_of_no_target h (by simp) rfl
  rcases exec_completed h with ⟨k, rfl⟩ | ⟨o, ho, hc⟩
  · exact ⟨fun _ _ => rfl, rfl, rfl, rfl, fun _ => rfl, .inr ⟨rfl, rfl, rfl⟩⟩
  · obtain ⟨hn, rfl⟩ := handlerFor_prn_ok ho
    exact ⟨fun j hj => by rw [hc.regs], hc.fl, hc.sp, hjo, fun c => by rw [hc.mem], .inl hc.cause⟩

theorem joMem_joAdd_of_joMem {jo : OriginSet} {q : PcWord} (h : joMem jo q = true) (p : PcWord) :
    joMem (joAdd jo p) q = true := by
  unfold joMem at h
  simp [joMem, joAdd, h]

/-- No execution takes an address out of JO (10_state.md R20). -/
theorem exec_joMem_mono {i : Instr} {s t : State} (h : exec i s = .next t) {q : PcWord} (hq : joMem s.jo q = true) :
    joMem t.jo q = true := by
  rcases exec_cases h with ⟨k, -, rfl⟩ | ⟨o, -, rfl⟩
  · exact hq
  · rcases pcPolicy_cases (opcodeOf i.op) o.result (commit o s) with ⟨-, he⟩ | ⟨-, t, -, he⟩ | ⟨-, -, he⟩
    · rw [he]; exact hq
    · rw [he]; exact joMem_joAdd_of_joMem hq _
    · rw [he]; exact hq

/-- Settles O43: the jumps' handlers and HLT's have no effect but their result, and the policy only adds to JO. -/
theorem frameOfControlTransfer : Obligations.FrameOfControlTransfer := by
  intro s t i n hi h
  have hmono := fun q => exec_joMem_mono (q := q) h
  have hhlt : i = .hlt → t.jo = s.jo ∧ t.pc = s.pc := by
    rintro rfl
    rw [exec_hlt] at h
    cases h
    exact ⟨rfl, rfl⟩
  rcases exec_completed h with ⟨k, rfl⟩ | ⟨o, ho, hc⟩
  · exact ⟨fun _ _ => rfl, rfl, rfl, rfl, fun _ => rfl, hmono, hhlt, .inr ⟨rfl, rfl, rfl⟩⟩
  · obtain ⟨result, rfl⟩ : ∃ result, o = ⟨s.regs, s.fl, none, result⟩ := by
      rcases hi with rfl | rfl | rfl | rfl
      · exact handlerFor_jump_ok rfl ho
      · exact handlerFor_jump_ok rfl ho
      · exact handlerFor_jump_ok rfl ho
      · exact ⟨.halt, (Except.ok.inj ho).symm⟩
    exact ⟨fun j hj => by rw [hc.regs], hc.fl, hc.sp, by simp [hc.out], fun c => by rw [hc.mem], hmono, hhlt, .inl hc.cause⟩

end Sys2Proof.Machine
end


section
/-! SUPPORT. How a step moves PC and JO (40_execute_loop.md R70 to R72), and the invariant (10_state.md R15 to R22,
40_execute_loop.md R78, R80), with the statements about them. -/

namespace Sys2Proof.Machine

/-- The target register of a jump is its first operand byte, and its opcode is one of the three. -/
theorem isJumpByte_of_jumpRegister {o : Op} {a b : Byte} {n : RegIndex} (h : jumpRegister (o.instr a b) = some n) :
    isJumpByte (opcodeOf o) = true ∧ n = a := by
  cases o with
  | jmp | jeq | jne => exact ⟨rfl, (Option.some.inj h).symm⟩
  | ldi | prn | mul | cmp | hlt => cases h

/-- The three ways a step moves PC and JO: it ends the run in place; a jump not in JO is taken, its address recorded; or PC
advances by the increment of a known opcode. -/
theorem step_move_cases {s t : State} (h : step s = .next t) :
    (t.rs ≠ .running ∧ t.pc = s.pc ∧ t.jo = s.jo) ∨
      (s.pc.toNat ≤ 253 ∧ joMem s.jo s.pc = false ∧ isJumpByte (s.mem.cell s.pc.toNat) = true ∧
        t.jo = joAdd s.jo s.pc ∧ ∃ hn : (s.mem.cell (s.pc.toNat + 1)).toNat < 9,
          t.pc.toNat = (s.regs[(s.mem.cell (s.pc.toNat + 1)).toNat]'hn).toNat) ∨
      (s.pc.toNat ≤ 253 ∧ t.jo = s.jo ∧ (∃ o, s.mem.cell s.pc.toNat = opcodeOf o) ∧
        t.pc.toNat = s.pc.toNat + (increment (s.mem.cell s.pc.toNat)).toNat) := by
  rcases step_cases h with ⟨k, rfl⟩ | ⟨hpc, o, out, ho, hout, rfl⟩
  · exact .inl ⟨by simp, rfl, rfl⟩
  · rcases pcPolicy_cases (opcodeOf o) out.result (commit out s) with ⟨-, he⟩ | ⟨hjo, t, hres, he⟩ | ⟨-, -, he⟩
    · rw [he]
      exact .inl ⟨by simp [stop], rfl, rfl⟩
    · obtain ⟨n, hreg, -, hn, ht⟩ := jump_of_result_redirect hout hres
      obtain ⟨hjump, rfl⟩ := isJumpByte_of_jumpRegister hreg
      rw [he, redirectTo_pc_toNat, ho, ht]
      exact .inr (.inl ⟨hpc, hjo, hjump, rfl, hn, rfl⟩)
    · rw [he, ho]
      exact .inr (.inr ⟨hpc, rfl, ⟨o, rfl⟩, advance_pc_toNat hpc _⟩)

/-- Settles O46: only the taken jump changes JO; its address is a member afterwards, and every other one is as before. -/
theorem onlyATakenJumpGrowsTheOriginSet : Obligations.OnlyATakenJumpGrowsTheOriginSet := by
  intro s t h
  rcases step_move_cases h with ⟨-, -, hjo⟩ | ⟨hpc, hnew, hjump, hadd, htarget⟩ | ⟨-, hjo, -⟩
  · exact .inl hjo
  · refine .inr ⟨hpc, hnew, hjump, fun q => ?_, htarget⟩
    rw [hadd, joMem_joAdd s.jo s.pc q (by omega), Bool.or_eq_true, decide_eq_true_eq]
  · exact .inl hjo

/-- A byte is a jump opcode exactly when it is the key of one of the three jumps. -/
theorem isJumpByte_iff {b : Byte} :
    isJumpByte b = true ↔ b = opcodeOf .jmp ∨ b = opcodeOf .jeq ∨ b = opcodeOf .jne := by
  simp [isJumpByte, opcodeOf, or_assoc]

theorem isPcSetting_of_isJumpByte {b : Byte} (h : isJumpByte b = true) : (decodeFields b).isPcSetting = true := by
  rcases isJumpByte_iff.mp h with rfl | rfl | rfl <;> decide

/-- Settles O30: a redirect stands at a jump opcode, whose bit 4 is set; the other steps leave JO. -/
theorem redirectNeedsThePcSettingBit : Obligations.RedirectNeedsThePcSettingBit := by
  intro s t h hbit
  rcases step_move_cases h with ⟨-, hpc, hjo⟩ | ⟨-, -, hjump, -⟩ | ⟨-, hjo, -, hpc⟩
  · exact ⟨hjo, .inl hpc⟩
  · exact absurd (hbit.symm.trans (isPcSetting_of_isJumpByte hjump)) (by simp)
  · exact ⟨hjo, .inr hpc⟩

theorem increment_opcodeOf_le (o : Op) : (increment (opcodeOf o)).toNat ≤ 3 := by cases o <;> decide

/-- PC stays reachable: a target is a byte, and the default advance from 253 reaches 256 at most (10_state.md R15). -/
theorem step_pc_le {s t : State} (h : step s = .next t) (hpc : s.pc.toNat ≤ 256) : t.pc.toNat ≤ 256 := by
  rcases step_move_cases h with ⟨-, he, -⟩ | ⟨-, -, -, -, hn, he⟩ | ⟨hpc, -, ⟨o, ho⟩, he⟩
  · rwa [he]
  · rw [he]
    exact (BitVec.isLt _).le
  · have hinc := increment_opcodeOf_le o
    rw [he, ho]
    omega

theorem getLsbD_joAdd {jo : OriginSet} {p : PcWord} {q : Nat} (h : (joAdd jo p).getLsbD q = true) :
    jo.getLsbD q = true ∨ q = p.toNat := by
  simp only [joAdd, BitVec.getLsbD_or, BitVec.getLsbD_twoPow, Bool.or_eq_true, Bool.and_eq_true, decide_eq_true_eq] at h
  exact h.imp_right fun h => h.2.symm

/-- The members of JO stay fetchable addresses of jumps with a register that exists (40_execute_loop.md R78). -/
theorem step_origins {s t : State} (h : step s = .next t) (hinv : Inv s) (p : Nat) (hp : t.jo.getLsbD p = true) :
    p ≤ 253 ∧ isJumpByte (t.mem.cell p) = true ∧ (t.mem.cell (p + 1)).toNat ≤ 8 := by
  rw [(stepKeepsMemoryAndStackPointer s t h).1]
  rcases step_move_cases h with ⟨-, -, hjo⟩ | ⟨hpc, -, hjump, hadd, hn, -⟩ | ⟨-, hjo, -⟩
  · exact hinv.origins p (hjo ▸ hp)
  · rcases getLsbD_joAdd (hadd ▸ hp) with hold | rfl
    · exact hinv.origins p hold
    · exact ⟨hpc, hjump, Nat.le_of_lt_succ hn⟩
  · exact hinv.origins p (hjo ▸ hp)

/-- FL stays 0x00 or one flag (10_state.md R19). -/
theorem step_fl_one_hot {s t : State} (h : step s = .next t)
    (hfl : s.fl = 0x00#8 ∨ s.fl = 0x01#8 ∨ s.fl = 0x02#8 ∨ s.fl = 0x04#8) :
    t.fl = 0x00#8 ∨ t.fl = 0x01#8 ∨ t.fl = 0x02#8 ∨ t.fl = 0x04#8 := by
  obtain ⟨hcmp, hflag⟩ := onlyCompareWritesTheFlags s t h
  by_cases hsame : t.fl = s.fl
  · rwa [hsame]
  · obtain ⟨hne, a, b, hi⟩ := hcmp hsame
    exact .inr (hflag a b hi hne)

/-- A step sets CAUSE exactly when it faults (10_state.md R22). -/
theorem step_cause_iff {s t : State} (h : step s = .next t) (hcause : s.cause.isSome = true ↔ s.rs = .faulted) :
    t.cause.isSome = true ↔ t.rs = .faulted := by
  rcases step_completed h with ⟨k, rfl⟩ | ⟨i, o, -, -, hne, hc⟩
  · simp
  · rw [hc.cause, hcause, running_of_step h]
    simp [hne]

/-- Settles O53: memory and SP are never written, and each other field's clause is a lemma about the step. -/
theorem stepKeepsTheInvariant : Obligations.StepKeepsTheInvariant := by
  intro s t hinv h
  obtain ⟨hmem, -, hsp⟩ := stepKeepsMemoryAndStackPointer s t h
  exact {
    mem_wf := by rw [hmem, hinv.mem_wf]
    pc_le := step_pc_le h hinv.pc_le
    sp_sentinel := hsp.trans hinv.sp_sentinel
    fl_one_hot := step_fl_one_hot h hinv.fl_one_hot
    cause_iff := step_cause_iff h hinv.cause_iff
    origins := step_origins h hinv }

/-- Settles O54: a member of JO is a fetchable jump whose register exists, and such a second arrival halts. -/
theorem revisitedOriginOnlyHalts : Obligations.RevisitedOriginOnlyHalts := by
  intro s hinv hr hjo
  obtain ⟨hpc, hjump, hreg⟩ := hinv.origins s.pc.toNat hjo
  have halts := fun i hi => revisitedJumpHalts.1 s i (s.mem.cell (s.pc.toNat + 1)) hr hpc hjo hi
  rcases isJumpByte_iff.mp hjump with ho | ho | ho
  · exact halts _ (instrAtPc_of_opcode ho) (.inl rfl) (Nat.lt_succ_of_le hreg)
  · exact halts _ (instrAtPc_of_opcode ho) (.inr (.inl rfl)) (Nat.lt_succ_of_le hreg)
  · exact halts _ (instrAtPc_of_opcode ho) (.inr (.inr rfl)) (Nat.lt_succ_of_le hreg)

end Sys2Proof.Machine
end

section
/-! SUPPORT. The step in the terms of the bytes at PC and of the fatal conditions (40_execute_loop.md R66 to R73, 60_exceptions.md R117
to R119), with the statements about them. -/

namespace Sys2Proof.Machine

/-- Settles O23. -/
theorem stepRunsTheDecodedInstruction : Obligations.StepRunsTheDecodedInstruction :=
  fun _ _ => step_of_instrAtPc

/-- Settles O24: bytes that begin with an encoding decode to its instruction. -/
theorem stepRunsTheEncodedInstruction : Obligations.StepRunsTheEncodedInstruction :=
  fun s _ hr hpc hbytes => step_of_instrAtPc hr hpc
    ((decode_eq_ok_iff_encode (f := fun k => s.mem.cell (s.pc.toNat + k))).mpr hbytes)

theorem decode_of_decodeTableWord {nbits w : Nat} {i : Instr} (h : decodeTableWord nbits w = some i) :
    decode (tableWordByte nbits w 0) (tableWordByte nbits w 1) (tableWordByte nbits w 2) = .ok i := by
  unfold decodeTableWord at h
  split at h
  · cases h; assumption
  · cases h

/-- Settles O25: the three cells at PC hold the word's bytes. -/
theorem placedWordIsRunNext : Obligations.PlacedWordIsRunNext := by
  intro s nbits w i hwf hr hpc hw
  refine step_of_instrAtPc hr hpc ?_
  have hcell := fun k (hk : k < 3) => withFetchWord_cell hwf hpc nbits w hk
  rw [instrAtPc, ← decode_of_decodeTableWord hw, ← hcell 0 (by omega), ← hcell 1 (by omega), ← hcell 2 (by omega)]
  rfl

/-- Settles O26. -/
theorem stopTestHaltsInPlace : Obligations.StopTestHaltsInPlace := by
  rintro s op result (rfl | hjo)
  · exact pcPolicy_halt op s
  · exact pcPolicy_of_joMem hjo op result

/-- A running machine's step is a fatal condition taken or an execution, and both answer a next state. -/
theorem exists_step_of_running {s : State} (hr : s.rs = .running) : ∃ t, step s = .next t := by
  rcases step_running hr with ⟨-, h⟩ | ⟨-, -, h⟩ | ⟨-, o, -, h⟩
  · exact ⟨_, h⟩
  · exact ⟨_, h⟩
  · rw [h]
    exact exec_isNext _ s

/-- Settles O38. -/
theorem terminalStatesHaveNoStep : Obligations.TerminalStatesHaveNoStep :=
  fun _ => ⟨step_halted, step_faulted, exists_step_of_running⟩

/-- No handler raises UnknownOpcode: the dispatch alone does (60_exceptions.md R117). -/
theorem handlerFor_ne_unknownOpcode (i : Instr) (r : RegFile) (fl : Byte) :
    handlerFor i r fl ≠ .error .unknownOpcode := by
  cases i with
  | ldi d x => rw [handlerFor, handleLdi_eq]; split <;> simp
  | prn n => rw [handlerFor, handlePrn_eq]; split <;> simp
  | mul a b => rw [handlerFor, handleMul_eq]; split_ifs <;> simp
  | cmp a b => rw [handlerFor, handleCmp_eq]; split <;> simp
  | jmp n | jeq n | jne n => rw [handlerFor_of_jumpRegister rfl, handleJump_eq]; split <;> simp
  | hlt => simp [handlerFor, handleHlt]

/-- A fetchable step raises UnknownOpcode exactly when its byte is no key. -/
theorem step_eq_raise_unknownOpcode_iff {s : State} (hr : s.rs = .running) (hpc : s.pc.toNat ≤ 253) :
    step s = .next (raise .unknownOpcode s) ↔ ∀ o, s.mem.cell s.pc.toNat ≠ opcodeOf o := by
  constructor
  · intro h o ho
    rw [step_of_instrAtPc hr hpc (instrAtPc_of_opcode ho), exec_eq_raise_iff (by simp [hr])] at h
    exact handlerFor_ne_unknownOpcode _ _ _ h
  · exact fun h => step_of_dispatch_none hr hpc (dispatch_eq_none_iff.mpr h)

theorem opcodeOf_toNat_lt (o : Op) : (opcodeOf o).toNat < 192 := by cases o <;> decide

/-- Settles O34: the eight bytes are the table's keys; the fill is none of them, and they are all below 192. -/
theorem unknownOpcodeFaults : Obligations.UnknownOpcodeFaults := by
  intro s hr hpc
  have hiff := step_eq_raise_unknownOpcode_iff hr hpc
  refine ⟨Iff.trans ?keys hiff.symm, fun h => hiff.mpr fun o ho => ?noKey⟩
  case keys => exact (not_congr mem_dispatchTable_keys).trans not_exists
  case noKey =>
    rcases h with hfill | hge
    · exact zero_ne_opcodeOf o (hfill.symm.trans ho)
    · exact absurd (opcodeOf_toNat_lt o) (by rw [← ho]; omega)

theorem exists_ge_of_wf_false {i : Instr} (h : i.wf = false) : ∃ n ∈ i.registers, 9 ≤ n.toNat := by
  simpa [Instr.wf] using h

/-- With its registers in range, an instruction whose product does not fit raises ResultOutOfRange: no other condition is left
(60_exceptions.md R118). -/
theorem handlerFor_resultOutOfRange {i : Instr} {r : RegFile} (hwf : i.wf = true) (hfit : productFits i r = false)
    (fl : Byte) : handlerFor i r fl = .error .resultOutOfRange := by
  cases h : handlerFor i r fl with
  | ok o =>
    have := productFits_of_noFatal (handlerFor_ok_iff_noFatal.mp ⟨o, h⟩)
    simp [hfit] at this
  | error k =>
    cases k with
    | resultOutOfRange => rfl
    | unknownOpcode => exact absurd h (handlerFor_ne_unknownOpcode i r fl)
    | outOfRange =>
      obtain ⟨n, hn, hge⟩ := handlerFor_eq_outOfRange_iff.mp h
      have := instr_wf_iff.mp hwf n hn
      omega

/-- Settles O35: the fetch and the dispatch come before the handler, which checks its indices before its product. -/
theorem fatalConditionsHaveThePriority : Obligations.FatalConditionsHaveThePriority := by
  refine fun s hr => ⟨step_of_pc_ge hr, step_of_dispatch_none hr, fun i hpc hi hwf => ?index,
    fun i hpc hi hwf hfit => ?product, fun i hpc hi hwf hfit => ?completes⟩
  case index =>
    rw [step_of_instrAtPc hr hpc hi]
    exact exec_of_error (handlerFor_eq_outOfRange_iff.mpr (exists_ge_of_wf_false hwf))
  case product =>
    rw [step_of_instrAtPc hr hpc hi]
    exact exec_of_error (handlerFor_resultOutOfRange hwf hfit s.fl)
  case completes =>
    obtain ⟨o, ho⟩ := handlerFor_of_noFatal (by rw [noFatal, hwf, hfit]; rfl) s.fl
    rw [step_of_instrAtPc hr hpc hi, exec_of_ok ho]
    exact ⟨_, rfl, pcPolicy_rs_ne_faulted (s := commit o s) (by simp [hr]) _ _, (completed_pcPolicy _ o s).cause⟩

end Sys2Proof.Machine
end

section
/-! SUPPORT. The statements about PRN, MUL and CMP, which differ in their handlers' effects and are advanced or stopped alike
(41_load_print.md, 42_alu.md), and about JEQ and JNE, which are one jump with two conditions (43_jumps_halt.md). -/

namespace Sys2Proof.Machine

/-- A handler that keeps the register file and FL has its emission as its only effect. -/
theorem commit_of_emit (s : State) (v : Byte) (result : HandlerResult) :
    commit ⟨s.regs, s.fl, some v, result⟩ s = s.withOut (s.out ++ [v]) := rfl

/-- A handler that keeps the register file and emits nothing has FL as its only effect. -/
theorem commit_of_fl (s : State) (f : Byte) (result : HandlerResult) :
    commit ⟨s.regs, f, none, result⟩ s = s.withFl f := by
  simp [commit, State.withRegs, State.withFl, State.withOut]

/-- A completed handler without a redirect, from its effects `u`: the advance off JO, the stop at a member of JO. -/
theorem exec_advances_or_stops {i : Instr} {s u : State} {o : HandlerOut} {k : Nat}
    (ho : handlerFor i s.regs s.fl = .ok o) (hres : o.result = .noRedirect) (hu : commit o s = u)
    (hk : (increment (opcodeOf i.op)).toNat = k) :
    (joMem s.jo s.pc = false → exec i s = .next (u.withPc (BitVec.ofNat 9 (s.pc.toNat + k)))) ∧
      (joMem s.jo s.pc = true → exec i s = .next (u.withRs .halted)) := by
  subst hu hk
  exact ⟨exec_of_noRedirect ho hres, exec_of_joMem ho⟩

/-- Settles O16: PRN's handler emits its register's value, or raises OutOfRange where it does not exist. -/
theorem prnAppendsTheRegister : Obligations.PrnAppendsTheRegister := by
  intro s n _
  have hexec := fun h : n.toNat < 9 => exec_advances_or_stops (i := .prn n) ((handlePrn_eq n s.regs s.fl).trans (dif_pos h))
    rfl (commit_of_emit s _ _) (increment_opcodeOf_toNat .prn)
  exact ⟨rfl, fun h => (hexec h).1, fun h => (hexec h).2,
    fun h => exec_of_error (handlerFor_eq_outOfRange_iff.mpr ⟨n, List.mem_singleton_self n, h⟩)⟩

/-- Settles O17: a product that fits is the value of its eight bits; the index checks come before the product's. -/
theorem mulStoresTheExactProduct : Obligations.MulStoresTheExactProduct := by
  refine fun s a b _ => ⟨rfl, fun ha hb hfit => ?completes, fun ha hb hlarge => ?product, fun h => ?index⟩
  case completes =>
    refine ⟨BitVec.ofNat 8 ((s.regs[a.toNat]'ha).toNat * (s.regs[b.toNat]'hb).toNat),
      by rw [BitVec.toNat_ofNat]; omega, ?_⟩
    exact exec_advances_or_stops (i := .mul a b)
      ((handleMul_eq a b s.regs s.fl).trans ((dif_pos ⟨ha, hb⟩).trans (if_pos hfit)))
      rfl (commit_of_regs s _ _) (increment_opcodeOf_toNat .mul)
  case product =>
    exact exec_of_error ((handleMul_eq a b s.regs s.fl).trans ((dif_pos ⟨ha, hb⟩).trans (if_neg (Nat.not_le.mpr hlarge))))
  case index => exact exec_of_error (handlerFor_eq_outOfRange_iff.mpr (by simpa [Instr.registers] using h))

theorem compareFlags_of_eq {u v : Byte} (h : u.toNat = v.toNat) : compareFlags u v = 0x01#8 := if_pos h

theorem compareFlags_of_lt {u v : Byte} (h : u.toNat < v.toNat) : compareFlags u v = 0x04#8 :=
  (if_neg h.ne).trans (if_pos h)

theorem compareFlags_of_gt {u v : Byte} (h : v.toNat < u.toNat) : compareFlags u v = 0x02#8 :=
  (if_neg h.ne').trans (if_neg h.asymm)

/-- Settles O18: FL takes the flag of the unsigned order. -/
theorem cmpWritesOneFlag : Obligations.CmpWritesOneFlag := by
  refine fun s a b _ => ⟨rfl, fun ha hb => ⟨compareFlags (s.regs[a.toNat]'ha) (s.regs[b.toNat]'hb), compareFlags_of_eq,
    compareFlags_of_lt, compareFlags_of_gt, ?completes⟩, fun h => ?index⟩
  case completes =>
    exact exec_advances_or_stops (i := .cmp a b) ((handleCmp_eq a b s.regs s.fl).trans (dif_pos ⟨ha, hb⟩))
      rfl (commit_of_fl s _ _) (increment_opcodeOf_toNat .cmp)
  case index => exact exec_of_error (handlerFor_eq_outOfRange_iff.mpr (by simpa [Instr.registers] using h))

/-- A taken jump off JO records its address and takes its register's value (43_jumps_halt.md R95 to R97). -/
theorem exec_jump_taken {i : Instr} {s : State} {n : RegIndex} (hreg : jumpRegister i = some n) (hn : n.toNat < 9)
    (hjo : joMem s.jo s.pc = false) (htaken : jumpTaken i s.fl = true) :
    exec i s = .next { s with
      jo := s.jo ||| (1#256 <<< s.pc.toNat), pc := BitVec.ofNat 9 (s.regs[n.toNat]'hn).toNat } := by
  have hok := handlerFor_jump_of_lt hreg hn s.regs s.fl
  rw [htaken, if_pos rfl] at hok
  rw [exec_of_redirect hok rfl hjo, commit_of_no_effect, BitVec.ofNat_toNat, ← joAdd_eq_or_shiftLeft]
  rfl

theorem increment_of_jumpRegister {i : Instr} {n : RegIndex} (hreg : jumpRegister i = some n) :
    (increment (opcodeOf i.op)).toNat = 2 := by
  cases i with
  | jmp | jeq | jne => exact increment_opcodeOf_toNat _
  | ldi | prn | mul | cmp | hlt => cases hreg

/-- A jump that is not taken advances by 2, off JO (43_jumps_halt.md R96, R97). -/
theorem exec_jump_not_taken {i : Instr} {s : State} {n : RegIndex} (hreg : jumpRegister i = some n) (hn : n.toNat < 9)
    (hjo : joMem s.jo s.pc = false) (hnot : jumpTaken i s.fl = false) :
    exec i s = .next { s with pc := BitVec.ofNat 9 (s.pc.toNat + 2) } := by
  have hok := handlerFor_jump_of_lt hreg hn s.regs s.fl
  rw [hnot, if_neg Bool.false_ne_true] at hok
  exact (exec_advances_or_stops hok rfl (commit_of_no_effect s _) (increment_of_jumpRegister hreg)).1 hjo

/-- A jump at a member of JO halts in place, taken or not (40_execute_loop.md R77). -/
theorem exec_jump_revisited {i : Instr} {s : State} {n : RegIndex} (hreg : jumpRegister i = some n) (hn : n.toNat < 9)
    (hjo : joMem s.jo s.pc = true) : exec i s = .next { s with rs := .halted } := by
  rw [exec_of_joMem (handlerFor_jump_of_lt hreg hn s.regs s.fl) hjo, commit_of_no_effect]
  rfl

/-- Settles O20: JEQ is the jump taken when E is set. -/
theorem jeqRedirectsWhenEqual : Obligations.JeqRedirectsWhenEqual := fun s n _ =>
  ⟨rfl, fun h hjo hE => exec_jump_taken (i := .jeq n) rfl h hjo hE, fun h hjo hE => exec_jump_not_taken rfl h hjo hE,
    fun h => exec_jump_revisited rfl h, fun h => exec_of_error (handlerFor_jump_of_ge rfl h s.regs s.fl)⟩

/-- Settles O21: JNE is the jump taken when E is clear. -/
theorem jneRedirectsWhenNotEqual : Obligations.JneRedirectsWhenNotEqual := fun s n _ =>
  ⟨rfl, fun h hjo hE => exec_jump_taken (i := .jne n) rfl h hjo (congrArg not hE),
    fun h hjo hE => exec_jump_not_taken (i := .jne n) rfl h hjo (congrArg not hE),
    fun h => exec_jump_revisited rfl h, fun h => exec_of_error (handlerFor_jump_of_ge rfl h s.regs s.fl)⟩

end Sys2Proof.Machine
end

section
/-! SUPPORT. What a step does not read: memory but the instruction's bytes, SP, OUT, and of FL all but E (10_state.md R17, R19, R23;
30_encoding.md R50), as one lemma about a step from a state with other values there, with the three statements about it. -/

namespace Sys2Proof.Machine

/-- The state with other values in the four fields that the PC-update policy does not read. -/
def State.withUnread (s : State) (m : Memory) (sp fl : Byte) (out : List Byte) : State :=
  { s with mem := m, sp := sp, fl := fl, out := out }

theorem pcPolicy_withUnread (op : Byte) (result : HandlerResult) (s : State) (m : Memory) (v f : Byte) (out : List Byte) :
    pcPolicy op result (s.withUnread m v f out) = (pcPolicy op result s).withUnread m v f out := by
  rcases pcPolicy_cases op result s with ⟨hjo | rfl, he⟩ | ⟨hjo, t, rfl, he⟩ | ⟨hjo, rfl, he⟩
  · rw [he, pcPolicy_of_joMem (s := s.withUnread m v f out) hjo]; rfl
  · rw [he, pcPolicy_halt]; rfl
  · rw [he, pcPolicy_redirect (s := s.withUnread m v f out) hjo]; rfl
  · rw [he, pcPolicy_noRedirect (s := s.withUnread m v f out) hjo]; rfl

theorem exec_withUnread_of_ok {i : Instr} {s : State} {f g : Byte} {o : HandlerOut}
    (ho : handlerFor i s.regs f = .ok { o with fl := g }) (m : Memory) (v : Byte) (out : List Byte) :
    exec i (s.withUnread m v f out) =
      .next ((pcPolicy (opcodeOf i.op) o.result (commit o s)).withUnread m v g (out ++ o.emit.toList)) := by
  rw [exec_of_ok (s := s.withUnread m v f out) ho, ← pcPolicy_withUnread]
  rfl

/-- A fatal condition does not depend on FL: a jump's index is checked whether or not it is taken (decision D25). -/
theorem handlerFor_error_of_fl {i : Instr} {r : RegFile} {fl : Byte} {k : Fatal} (h : handlerFor i r fl = .error k)
    (f : Byte) : handlerFor i r f = .error k := by
  cases i with
  | ldi d x => rw [handlerFor, handleLdi_eq] at h ⊢; split_ifs at h ⊢; exact h
  | prn n => rw [handlerFor, handlePrn_eq] at h ⊢; split_ifs at h ⊢; exact h
  | mul a b =>
    rw [handlerFor, handleMul_eq] at h ⊢
    split_ifs at h ⊢
    · exact h
    · exact h
  | cmp a b => rw [handlerFor, handleCmp_eq] at h ⊢; split_ifs at h ⊢; exact h
  | jmp n | jeq n | jne n =>
    rw [handlerFor_of_jumpRegister rfl, handleJump_eq] at h ⊢
    split_ifs at h ⊢
    exact h
  | hlt => cases h

/-- E is the only flag a jump's condition reads (10_state.md R19). -/
theorem jumpTaken_congr {f fl : Byte} (hE : flE f = flE fl) (i : Instr) : jumpTaken i f = jumpTaken i fl := by
  cases i <;> simp [jumpTaken, hE]

/-- With the same E a completed handler answers the same, but for FL, which CMP writes anew and every other keeps. -/
theorem handlerFor_ok_of_flE {i : Instr} {r : RegFile} {f fl : Byte} {o : HandlerOut} (hE : flE f = flE fl)
    (h : handlerFor i r fl = .ok o) :
    ∃ g, handlerFor i r f = .ok { o with fl := g } ∧ ((g = f ∧ o.fl = fl) ∨ g = o.fl) := by
  cases i with
  | ldi d x =>
    obtain ⟨hd, rfl⟩ := handlerFor_ldi_ok h
    exact ⟨f, (handleLdi_eq d x r f).trans (dif_pos hd), .inl ⟨rfl, rfl⟩⟩
  | prn n =>
    obtain ⟨hn, rfl⟩ := handlerFor_prn_ok h
    exact ⟨f, (handlePrn_eq n r f).trans (dif_pos hn), .inl ⟨rfl, rfl⟩⟩
  | mul a b =>
    obtain ⟨ha, hb, hfit, rfl⟩ := handlerFor_mul_ok h
    exact ⟨f, (handleMul_eq a b r f).trans ((dif_pos ⟨ha, hb⟩).trans (if_pos hfit)), .inl ⟨rfl, rfl⟩⟩
  | cmp a b => exact ⟨o.fl, h, .inr rfl⟩
  | jmp n | jeq n | jne n =>
    obtain ⟨hn, -⟩ := handlerFor_jump_result rfl h
    rw [handlerFor_jump_of_lt rfl hn] at h
    cases h
    exact ⟨f, by rw [handlerFor_jump_of_lt rfl hn, jumpTaken_congr hE], .inl ⟨rfl, rfl⟩⟩
  | hlt => cases h; exact ⟨f, rfl, .inl ⟨rfl, rfl⟩⟩

/-- The step from `s` with other unread values answers `t` with those values, but for OUT, grown by the tail that `t` grew by, and
FL, kept where `t` kept it and else written as in `t`. -/
def StepsAlike (s t : State) (m : Memory) (v f : Byte) (out : List Byte) : Prop :=
  ∃ g tail, step (s.withUnread m v f out) = .next (t.withUnread m v g (out ++ tail)) ∧
    ((g = f ∧ t.fl = s.fl) ∨ g = t.fl) ∧ t.out = s.out ++ tail

theorem stepsAlike_of_raise {s : State} {m : Memory} {v f : Byte} {out : List Byte} {k : Fatal}
    (h : step (s.withUnread m v f out) = .next (raise k (s.withUnread m v f out))) :
    StepsAlike s (raise k s) m v f out := by
  refine ⟨f, [], ?_, .inl ⟨rfl, rfl⟩, (List.append_nil _).symm⟩
  rw [List.append_nil]
  exact h

/-- A step reads none of the unread values but E and the instruction at PC. -/
theorem stepsAlike_of_step {s t : State} (h : step s = .next t) {m : Memory} {v f : Byte} {out : List Byte}
    (hE : flE f = flE s.fl) (hi : instrAtPc (s.withUnread m v f out) = instrAtPc s) : StepsAlike s t m v f out := by
  have hr := running_of_step h
  rcases Nat.lt_or_ge 253 s.pc.toNat with hpc | hpc
  · rw [step_of_pc_ge hr hpc] at h
    cases h
    exact stepsAlike_of_raise (step_of_pc_ge (s := s.withUnread m v f out) hr hpc)
  cases hs : instrAtPc s with
  | error e =>
    rw [step_of_instrAtPc_error hr hpc hs] at h
    cases h
    exact stepsAlike_of_raise (step_of_instrAtPc_error (s := s.withUnread m v f out) hr hpc (hi.trans hs))
  | ok i =>
    rw [step_of_instrAtPc hr hpc hs] at h
    have hstep := step_of_instrAtPc (s := s.withUnread m v f out) hr hpc (hi.trans hs)
    rcases exec_cases h with ⟨k, hk, rfl⟩ | ⟨o, ho, rfl⟩
    · exact stepsAlike_of_raise (hstep.trans (exec_of_error (handlerFor_error_of_fl hk f)))
    · obtain ⟨g, hg, hfl⟩ := handlerFor_ok_of_flE hE ho
      have hc := completed_pcPolicy (opcodeOf i.op) o s
      exact ⟨g, o.emit.toList, hstep.trans (exec_withUnread_of_ok hg m v out), by rwa [hc.fl], hc.out⟩

/-- With FL as it was, the next state's FL is the given step's. -/
theorem exists_tail_of_stepsAlike {s t : State} {m : Memory} {v : Byte} {out : List Byte}
    (h : StepsAlike s t m v s.fl out) : ∃ tail,
      step (s.withUnread m v s.fl out) = .next (t.withUnread m v t.fl (out ++ tail)) ∧ t.out = s.out ++ tail := by
  obtain ⟨g, tail, hstep, hfl, hout⟩ := h
  have hg : g = t.fl := hfl.elim (fun ⟨hg, ht⟩ => hg.trans ht.symm) id
  exact ⟨tail, hg ▸ hstep, hout⟩

/-- Settles O48: the same step with another FL of the same E, memory, SP and OUT being as they were. -/
theorem lessAndGreaterAreNeverRead : Obligations.LessAndGreaterAreNeverRead := by
  intro s t f hE h
  obtain ⟨hmem, -, hsp⟩ := stepKeepsMemoryAndStackPointer s t h
  obtain ⟨g, tail, hstep, hfl, hout⟩ := stepsAlike_of_step (m := s.mem) (v := s.sp) (out := s.out) h hE rfl
  refine ⟨g, hstep.trans ?_, hfl⟩
  rw [← hmem, ← hsp, ← hout]
  rfl

/-- Settles O49: the same step with another SP and an earlier output, memory and FL being as they were. -/
theorem stackPointerAndOutputAreNeverRead : Obligations.StackPointerAndOutputAreNeverRead := by
  intro s t v earlier h
  obtain ⟨hmem, -, -⟩ := stepKeepsMemoryAndStackPointer s t h
  obtain ⟨tail, hstep, hout⟩ := exists_tail_of_stepsAlike
    (stepsAlike_of_step (m := s.mem) (v := v) (out := earlier ++ s.out) h rfl rfl)
  refine hstep.trans ?_
  rw [← hmem, List.append_assoc, ← hout]
  rfl

/-- Memories that agree on the bytes of the default increment hold the same instruction at PC, or the same unknown opcode. -/
theorem instrAtPc_congr {s s' : State} (hpc : s'.pc = s.pc)
    (hbytes : ∀ k < (increment (s.mem.cell s.pc.toNat)).toNat,
      s'.mem.cell (s.pc.toNat + k) = s.mem.cell (s.pc.toNat + k)) : instrAtPc s' = instrAtPc s := by
  have hop : s'.mem.cell s.pc.toNat = s.mem.cell s.pc.toNat := hbytes 0 (by rw [increment_toNat]; omega)
  rw [instrAtPc, hpc]
  cases hs : instrAtPc s with
  | error e => exact decode_eq_error_iff.mpr (by rw [hop]; exact decode_eq_error_iff.mp hs)
  | ok i =>
    have hlen : (encode i).length = (increment (s.mem.cell s.pc.toNat)).toNat := by
      obtain ⟨o, ho, rfl⟩ := decode_eq_ok_iff.mp hs
      rw [length_encode_instr, ho]
    have hencode := (decode_eq_ok_iff_encode (f := fun k => s.mem.cell (s.pc.toNat + k))).mp hs
    refine (decode_eq_ok_iff_encode (f := fun k => s'.mem.cell (s.pc.toNat + k))).mpr fun k hk => ?_
    rw [hencode k hk, hbytes k (hlen ▸ hk)]

/-- Settles O50: the same step with another memory that holds the same instruction at PC, SP, FL and OUT being as they were. -/
theorem stepIgnoresBytesOutsideTheInstruction : Obligations.StepIgnoresBytesOutsideTheInstruction := by
  intro s t m h hbytes
  obtain ⟨-, -, hsp⟩ := stepKeepsMemoryAndStackPointer s t h
  obtain ⟨tail, hstep, hout⟩ := exists_tail_of_stepsAlike
    (stepsAlike_of_step (m := m) (v := s.sp) (out := s.out) h rfl (instrAtPc_congr rfl hbytes))
  refine hstep.trans ?_
  rw [← hsp, ← hout]
  rfl

end Sys2Proof.Machine
end

section
/-! SUPPORT. Whole runs: what is kept along one, why every run ends (40_execute_loop.md R74, R79), what `run` reports
(50_interfaces.md R110), and how many addresses JO can hold (10_state.md R20), with the statements about them. -/

namespace Sys2Proof.Machine

theorem runFor_succ_of_step {s t : State} (h : step s = .next t) (n : Nat) : runFor (n + 1) s = runFor n t := by
  rw [runFor, h]

/-- On a terminal machine nothing is done (40_execute_loop.md R66). -/
theorem runFor_of_ne_running {s : State} (h : s.rs ≠ .running) (n : Nat) : runFor n s = s := by
  cases n with
  | zero => rfl
  | succ n =>
    cases hr : s.rs with
    | running => exact absurd hr h
    | halted => rw [runFor, step_halted hr]
    | faulted => rw [runFor, step_faulted hr]

/-- What every step keeps holds at every point of a run. -/
theorem runFor_induction {P : State → Prop} (hstep : ∀ s t, P s → step s = .next t → P t) (n : Nat) :
    ∀ {s : State}, P s → P (runFor n s) := by
  induction n with
  | zero => exact id
  | succ n ih =>
    intro s hs
    by_cases hr : s.rs = .running
    · obtain ⟨t, ht⟩ := exists_step_of_running hr
      rw [runFor_succ_of_step ht]
      exact ih (hstep s t hs ht)
    · rwa [runFor_of_ne_running hr]

/-- The fetchable addresses that are not in JO: those from which a jump can still be taken. -/
def openOrigins (jo : OriginSet) : Finset Nat := (Finset.range 254).filter fun p => jo.getLsbD p = false

theorem card_openOrigins_le (jo : OriginSet) : (openOrigins jo).card ≤ 254 :=
  (Finset.card_filter_le _ _).trans (Finset.card_range 254).le

/-- Recording a fetchable address that was not in JO leaves fewer to record. -/
theorem card_openOrigins_joAdd_lt {jo : OriginSet} {p : PcWord} (hp : p.toNat ≤ 253) (hnew : joMem jo p = false) :
    (openOrigins (joAdd jo p)).card < (openOrigins jo).card := by
  refine Finset.card_lt_card (Finset.ssubset_iff_of_subset (fun q hq => ?sub) |>.mpr ⟨p.toNat, ?mem, ?notMem⟩)
  case sub =>
    simp only [openOrigins, Finset.mem_filter, joAdd, BitVec.getLsbD_or, Bool.or_eq_false_iff] at hq ⊢
    exact ⟨hq.1, hq.2.1⟩
  case mem => exact Finset.mem_filter.mpr ⟨Finset.mem_range.mpr (by omega), hnew⟩
  case notMem =>
    have hlt : p.toNat < 256 := by omega
    simp [openOrigins, joAdd, hlt]

/-- A bound on the steps still to come: a pass of 254 addresses for each jump that can be taken, and the rest of this one
(40_execute_loop.md R79). -/
def stepsLeft (s : State) : Nat := (openOrigins s.jo).card * 254 + (254 - s.pc.toNat)

theorem stepsLeft_le (s : State) : stepsLeft s ≤ 255 * 254 := by
  have hcard := card_openOrigins_le s.jo
  unfold stepsLeft
  omega

/-- A step that leaves the machine running either uses up a jump or moves PC up in its pass. -/
theorem stepsLeft_lt_of_step {s t : State} (h : step s = .next t) (ht : t.rs = .running) : stepsLeft t < stepsLeft s := by
  rcases step_move_cases h with ⟨hend, -, -⟩ | ⟨hpc, hnew, -, hadd, -⟩ | ⟨hpc, hjo, -, hadvance⟩
  · exact absurd ht hend
  · have hcard := card_openOrigins_joAdd_lt hpc hnew
    unfold stepsLeft
    rw [hadd]
    omega
  · rw [increment_toNat] at hadvance
    unfold stepsLeft
    rw [hjo]
    omega

/-- A machine still running after n steps has used up n of the steps left to it. -/
theorem stepsLeft_runFor {n : Nat} : ∀ {s : State}, (runFor n s).rs = .running →
    stepsLeft (runFor n s) + n ≤ stepsLeft s := by
  induction n with
  | zero =>
    intro s _
    rw [runFor, Nat.add_zero]
  | succ n ih =>
    intro s h
    by_cases hr : s.rs = .running
    · obtain ⟨t, ht⟩ := exists_step_of_running hr
      rw [runFor_succ_of_step ht] at h ⊢
      have htr : t.rs = .running := by
        by_contra hne
        rw [runFor_of_ne_running hne] at h
        exact hne h
      have hlt := stepsLeft_lt_of_step ht htr
      have hle := ih h
      omega
    · rw [runFor_of_ne_running hr] at h
      exact absurd h hr

/-- Settles O55: no machine has more than 255 × 254 steps left. -/
theorem everyRunEnds : Obligations.EveryRunEnds := by
  intro s _ hrunning
  have hused := stepsLeft_runFor hrunning
  have hle := stepsLeft_le s
  omega

theorem runFor_runBound_rs (s : State) : (runFor runBound s).rs ≠ .running := by
  by_cases hr : s.rs = .running
  · exact everyRunEnds s hr
  · rwa [runFor_of_ne_running hr]

/-- A run of a terminal machine is its report. -/
theorem run_of_ne_running {s : State} (h : s.rs ≠ .running) : run s = (runStatus s, s) := by
  rw [run, runFor_of_ne_running h]

theorem runStatus_of_halted {s : State} (h : s.rs = .halted) : runStatus s = .success := by rw [runStatus, h]

theorem runStatus_of_faulted {s : State} (h : s.rs = .faulted) : runStatus s = .failure s.cause := by rw [runStatus, h]

/-- Settles O57: a run ends in a terminal state, which is reported as it is and on which a further run does nothing. -/
theorem runReportsHowItEnded : Obligations.RunReportsHowItEnded := by
  intro s
  have hend : (run s).2.rs ≠ .running := runFor_runBound_rs s
  refine ⟨fun h => ?halted, fun h => ?faulted, ?ends, run_of_ne_running hend⟩
  case halted => rw [run_of_ne_running (by simp [h]), runStatus_of_halted h]
  case faulted => rw [run_of_ne_running (by simp [h]), runStatus_of_faulted h]
  case ends =>
    cases h : (run s).2.rs with
    | running => exact absurd h hend
    | halted => exact .inl ⟨runStatus_of_halted h, rfl⟩
    | faulted => exact .inr ⟨runStatus_of_faulted h, rfl⟩

/-- Settles O56: the invariant holds at every point of a loaded run, so JO's members are among the 254 fetchable addresses. -/
theorem originSetHasAtMost254Members : Obligations.OriginSetHasAtMost254Members := by
  intro image s n h
  have hinv : Inv (runFor n (load image s).2) :=
    runFor_induction stepKeepsTheInvariant n (loadEstablishesTheInvariant image s h)
  refine ⟨fun p hp => ?member, ?length⟩
  case member =>
    obtain ⟨hle, hjump, -⟩ := hinv.origins p hp
    exact ⟨hle, hjump⟩
  case length =>
    refine ((List.nodup_range.filter _).subperm fun p hp => ?_).length_le.trans (List.length_range (n := 254)).le
    obtain ⟨hle, -, -⟩ := hinv.origins p (List.mem_filter.mp hp).2
    exact List.mem_range.mpr (by omega)

end Sys2Proof.Machine
end

section
/-! SUPPORT. The block decomposition (50_interfaces.md R101 to R108): the signals of a step are its handler's answer, and the
multiplexer over them is the loop's PC-update policy, with the statement that the two views are one step. -/

namespace Sys2Proof.Machine

/-- The flag register's write data is CMP's flags (50_interfaces.md R104, 42_alu.md R91). -/
theorem flData_eq_compareFlags (u v : Byte) : flData u v = compareFlags u v := by
  have heq : (u == v) = decide (u.toNat = v.toNat) := by
    rw [Bool.beq_eq_decide_eq]
    exact decide_eq_decide.mpr BitVec.toNat_inj.symm
  rw [flData, heq, BitVec.ult, BitVec.ult]
  rcases compareFlags_cases u v with ⟨h, hf⟩ | ⟨h, hf⟩ | ⟨h, hf⟩
  · rw [hf, decide_eq_true h, decide_eq_false h.not_lt, decide_eq_false h.not_gt]; rfl
  · rw [hf, decide_eq_true h, decide_eq_false h.ne, decide_eq_false h.asymm]; rfl
  · rw [hf, decide_eq_true h, decide_eq_false h.ne', decide_eq_false h.asymm]; rfl

theorem mul_eq_ofNat (u v : Byte) : u * v = BitVec.ofNat 8 (u.toNat * v.toNat) :=
  BitVec.eq_of_toNat_eq (by rw [BitVec.toNat_mul, BitVec.toNat_ofNat])

theorem portOor_of_lt {i : RegIndex} (h : i.toNat < 9) (en : Bool) : portOor en i = false := by
  rw [portOor, decide_eq_false (Nat.not_le.mpr h), Bool.and_false]

theorem portOor_of_ge {i : RegIndex} (h : 9 ≤ i.toNat) : portOor true i = true := decide_eq_true h

theorem portOor_off (i : RegIndex) : portOor false i = false := rfl

theorem portData_of_lt {i : RegIndex} (h : i.toNat < 9) (r : RegFile) : portData r true i = r[i.toNat]'h := dif_pos h

theorem portWrite_of_lt {i : RegIndex} (h : i.toNat < 9) (r : RegFile) (v : Byte) :
    portWrite r true i v = r.set i.toNat v h := dif_pos h

theorem portWrite_off (r : RegFile) (i : RegIndex) (v : Byte) : portWrite r false i v = r := by
  simp [portWrite]

/-- The signals beside a handler that completes are its answer (50_interfaces.md R103 to R108). -/
theorem blockSignals_of_ok {o : Op} {a b : Byte} {r : RegFile} {fl : Byte} {out : HandlerOut}
    (h : handlerFor (o.instr a b) r fl = .ok out) :
    blockSignals false (some o) a b r fl = ⟨none, out.regs, out.fl, out.emit, out.result⟩ := by
  cases o with
  | ldi =>
    obtain ⟨ha, rfl⟩ := handlerFor_ldi_ok h
    simp [blockSignals, portDrive, portOor_of_lt ha, portWrite_of_lt ha, writeData, portOor_off, fatalLine, selResult]
  | prn =>
    obtain ⟨ha, rfl⟩ := handlerFor_prn_ok h
    simp [blockSignals, portDrive, portOor_of_lt ha, portData_of_lt ha, portWrite_off, portOor_off, fatalLine, selResult]
  | mul =>
    obtain ⟨ha, hb, hfit, rfl⟩ := handlerFor_mul_ok h
    simp [blockSignals, portDrive, portOor_of_lt ha, portOor_of_lt hb, portData_of_lt ha, portData_of_lt hb,
      portWrite_of_lt ha, writeData, mul_eq_ofNat, Nat.not_lt.mpr hfit, fatalLine, selResult]
  | cmp =>
    obtain ⟨ha, hb, rfl⟩ := handlerFor_cmp_ok h
    simp [blockSignals, portDrive, portOor_of_lt ha, portOor_of_lt hb, portData_of_lt ha, portData_of_lt hb,
      portWrite_off, flData_eq_compareFlags, portOor_off, fatalLine, selResult]
  | jmp | jeq | jne =>
    obtain ⟨ha, -⟩ := handlerFor_jump_result rfl h
    rw [handlerFor_jump_of_lt rfl ha] at h
    cases h
    cases hE : fl[0] <;> simp [blockSignals, portDrive, portOor_of_lt ha, portData_of_lt ha, portWrite_off,
      portOor_off, fatalLine, selResult, jumpTaken, Op.instr, flE, hE]
  | hlt =>
    cases h
    simp [blockSignals, portDrive, portWrite_off, portOor_off, fatalLine, selResult]

/-- The fatal line beside a handler that raises a condition carries it (50_interfaces.md R106). -/
theorem blockSignals_of_error {o : Op} {a b : Byte} {r : RegFile} {fl : Byte} {k : Fatal}
    (h : handlerFor (o.instr a b) r fl = .error k) : (blockSignals false (some o) a b r fl).fatal = some k := by
  cases o with
  | ldi =>
    rw [Op.instr, handlerFor, handleLdi_eq] at h
    split_ifs at h with ha
    cases h
    simp [blockSignals, portDrive, portOor_of_ge (Nat.not_lt.mp ha), fatalLine]
  | prn =>
    rw [Op.instr, handlerFor, handlePrn_eq] at h
    split_ifs at h with ha
    cases h
    simp [blockSignals, portDrive, portOor_of_ge (Nat.not_lt.mp ha), fatalLine]
  | mul =>
    rw [Op.instr, handlerFor, handleMul_eq] at h
    split_ifs at h with hreg hfit
    · cases h
      simp [blockSignals, portDrive, portOor_of_lt hreg.1, portOor_of_lt hreg.2, portData_of_lt hreg.1,
        portData_of_lt hreg.2, Nat.not_le.mp hfit, fatalLine]
    · cases h
      have hor : 9 ≤ a.toNat ∨ 9 ≤ b.toNat := by omega
      rcases hor with ha | hb
      · simp [blockSignals, portDrive, portOor_of_ge ha, fatalLine]
      · simp [blockSignals, portDrive, portOor_of_ge hb, fatalLine]
  | cmp =>
    rw [Op.instr, handlerFor, handleCmp_eq] at h
    split_ifs at h with hreg
    cases h
    have hor : 9 ≤ a.toNat ∨ 9 ≤ b.toNat := by omega
    rcases hor with ha | hb
    · simp [blockSignals, portDrive, portOor_of_ge ha, fatalLine]
    · simp [blockSignals, portDrive, portOor_of_ge hb, fatalLine]
  | jmp | jeq | jne =>
    rw [handlerFor_of_jumpRegister rfl, handleJump_eq] at h
    split_ifs at h with ha
    cases h
    simp [blockSignals, portDrive, portOor_of_ge (Nat.not_lt.mp ha), fatalLine]
  | hlt => cases h

theorem muxSelect_of_fatal {sig : BlockSignals} {k : Fatal} (h : sig.fatal = some k) (op : Byte) (s : State) :
    muxSelect op sig s = raise k s := by
  rw [muxSelect, h]
  rfl

/-- A target byte with a zero before it is the byte as a PC (50_interfaces.md R106). -/
theorem zero_append_eq_setWidth (t : Byte) : 0#1 ++ t = t.setWidth 9 :=
  BitVec.eq_of_toNat_eq (by
    have hlt := t.isLt
    rw [BitVec.toNat_append, BitVec.toNat_setWidth, Nat.mod_eq_of_lt (by omega)]
    simp)

/-- Over a completed handler's answer the multiplexer is the loop's policy (50_interfaces.md R106, 40_execute_loop.md R70 to R72). -/
theorem muxSelect_of_completed (op : Byte) (out : HandlerOut) (s : State) :
    muxSelect op ⟨none, out.regs, out.fl, out.emit, out.result⟩ s = pcPolicy op out.result (commit out s) := by
  rcases pcPolicy_cases op out.result (commit out s) with ⟨hstop, he⟩ | ⟨hjo, t, hres, he⟩ | ⟨hjo, hres, he⟩
  · rw [he, muxSelect]
    exact if_pos hstop.symm
  · obtain ⟨regs, fl, emit, result⟩ := out
    cases hres
    have hgo : ¬ (HandlerResult.redirect t = .halt ∨ joMem s.jo s.pc = true) := by simpa using hjo
    rw [he, redirectTo, joAdd_eq_or_shiftLeft, ← zero_append_eq_setWidth, muxSelect]
    exact if_neg hgo
  · obtain ⟨regs, fl, emit, result⟩ := out
    cases hres
    have hgo : ¬ (HandlerResult.noRedirect = .halt ∨ joMem s.jo s.pc = true) := by simpa using hjo
    rw [he, muxSelect]
    exact if_neg hgo

/-- The step is the multiplexer's next state: the fetch error and the unknown opcode are fatal lines, and otherwise the signals are
the handler's answer. -/
theorem step_eq_muxNext {s : State} (hr : s.rs = .running) : step s = .next (muxNext s) := by
  rcases step_running hr with ⟨hpc, h⟩ | ⟨hpc, hno, h⟩ | ⟨hpc, o, ho, h⟩
  · rw [h, muxNext, decide_eq_true (by omega), muxSelect_of_fatal rfl]
  · rw [h, muxNext, decide_eq_false (by omega), dispatch_eq_none_iff.mpr hno, muxSelect_of_fatal rfl]
  · rw [h, muxNext, decide_eq_false (by omega), dispatch_eq_some_iff.mpr ho]
    rcases exec_isNext (o.instr (s.mem.cell (s.pc.toNat + 1)) (s.mem.cell (s.pc.toNat + 2))) s with ⟨t, ht⟩
    rw [ht]
    rcases exec_cases ht with ⟨k, hk, rfl⟩ | ⟨out, hout, rfl⟩
    · rw [muxSelect_of_fatal (blockSignals_of_error hk)]
    · rw [blockSignals_of_ok hout, muxSelect_of_completed, Op.instr_op, ho]

/-- The output is valid exactly for a PRN beside no fatal line (50_interfaces.md R108). -/
theorem blockSignals_outValid_iff (fetchOor : Bool) (sel : Option Op) (a b : Byte) (r : RegFile) (fl : Byte) :
    (blockSignals fetchOor sel a b r fl).outValid.isSome = true ↔
      sel = some .prn ∧ (blockSignals fetchOor sel a b r fl).fatal = none := by
  simp only [blockSignals, Option.isSome_ite, Option.isNone_iff_eq_none]

/-- Beside a fatal line no register is written and FL is kept (50_interfaces.md R103, R104). -/
theorem blockSignals_of_fatal {fetchOor : Bool} {sel : Option Op} {a b : Byte} {r : RegFile} {fl : Byte}
    (h : (blockSignals fetchOor sel a b r fl).fatal ≠ none) :
    (blockSignals fetchOor sel a b r fl).regs = r ∧ (blockSignals fetchOor sel a b r fl).fl = fl := by
  have hnone : (blockSignals fetchOor sel a b r fl).fatal.isNone = false := by
    rwa [Option.isNone_eq_false_iff, Option.isSome_iff_ne_none]
  simp only [blockSignals] at hnone ⊢
  rw [hnone, Bool.and_false, portWrite_off, if_neg (by simp)]
  exact ⟨rfl, rfl⟩

/-- Settles O32: the two views of the step agree, and the signals beside a fatal line are gated. -/
theorem stepIsTheBlockMultiplexer : Obligations.StepIsTheBlockMultiplexer :=
  ⟨fun _ => step_eq_muxNext, fun fetchOor sel a b r fl =>
    ⟨blockSignals_outValid_iff fetchOor sel a b r fl, blockSignals_of_fatal⟩⟩

end Sys2Proof.Machine
end

section
/-! SUPPORT. The text the host sees: the status code of CAUSE and the decimal output (10_state.md R22, R23), with the statements about
them. -/

namespace Sys2Proof.Machine

/-- Settles O39. -/
theorem causeCodesAreTheTable : Obligations.CauseCodesAreTheTable := ⟨rfl, rfl, rfl, rfl⟩

theorem digitChar_eq_natDigitChar {d : Nat} (h : d < 10) : digitChar d = Nat.digitChar d := by
  interval_cases d <;> rfl

theorem natRepr_toList_of_lt {n : Nat} (h : n < 10) : n.repr.toList = [digitChar n] := by
  rw [Nat.repr_of_lt h, String.toList_singleton, digitChar_eq_natDigitChar h]

/-- A numeral of two digits or more is the numeral of its tens and its last digit. -/
theorem natRepr_toList_of_ge {n : Nat} (h : 10 ≤ n) : n.repr.toList = (n / 10).repr.toList ++ [digitChar (n % 10)] := by
  rw [Nat.repr_eq_repr_append_repr h, String.toList_append, natRepr_toList_of_lt (Nat.mod_lt n (by decide))]

/-- The model's numeral of a byte is the numeral of its value: one, two or three digits (decision D14). -/
theorem decimal_eq_natRepr (v : Byte) : decimal v = v.toNat.repr.toList := by
  have hlt := v.isLt
  dsimp only [decimal]
  split_ifs with h1 h2
  · rw [natRepr_toList_of_lt h1]
  · rw [natRepr_toList_of_ge (by omega), natRepr_toList_of_lt (by omega)]
    rfl
  · rw [natRepr_toList_of_ge (by omega), natRepr_toList_of_ge (by omega), natRepr_toList_of_lt (by omega),
      Nat.div_div_eq_div_mul]
    rfl

/-- Settles O58: the text is the values' lines in order, and a line is its value's numeral. -/
theorem outputTextIsDecimalLines : Obligations.OutputTextIsDecimalLines := by
  refine ⟨rfl, fun v rest => ?_⟩
  rw [outText, List.flatMap_cons, decimal_eq_natRepr, List.append_assoc]
  rfl

end Sys2Proof.Machine
end

section
/-! SUPPORT. The Loader (30_encoding.md R60, 60_exceptions.md R124): the three kinds of a line in the terms of its characters, and
what a file of lines assembles to, with the statement about program text. -/

namespace Sys2Proof.Machine

theorem isBlank_iff (c : Char) : isBlank c = true ↔ c = ' ' ∨ c = '\t' ∨ c = '\r' := by
  simp [isBlank, or_assoc]

theorem hash_not_blank : isBlank '#' = false := by decide

theorem dropWhile_isBlank_append {lead : List Char} (h : allBlank lead) (cs : List Char) :
    (lead ++ cs).dropWhile isBlank = cs.dropWhile isBlank := List.dropWhile_append_of_pos h

theorem allBlank_takeWhile (cs : List Char) : allBlank (cs.takeWhile isBlank) := fun _ => List.mem_takeWhile_imp

/-- The form of a skipped line, read off what follows its leading white space. -/
theorem blankOrComment_iff {cs : List Char} :
    blankOrComment cs ↔ cs.dropWhile isBlank = [] ∨ ∃ rest, cs.dropWhile isBlank = '#' :: rest := by
  constructor
  · rintro (hblank | ⟨w, rest, hw, rfl⟩)
    · exact .inl (List.dropWhile_eq_nil_iff.mpr hblank)
    · refine .inr ⟨rest, ?_⟩
      rw [dropWhile_isBlank_append hw, List.dropWhile_cons_of_neg (by simp [hash_not_blank])]
  · rintro (hnil | ⟨rest, hrest⟩)
    · exact .inl (List.dropWhile_eq_nil_iff.mp hnil)
    · refine .inr ⟨cs.takeWhile isBlank, rest, allBlank_takeWhile cs, ?_⟩
      rw [← hrest, List.takeWhile_append_dropWhile]

theorem lineKind_eq_skipped_iff {line : List Char} : lineKind line = .skipped ↔ blankOrComment line := by
  rw [blankOrComment_iff, lineKind]
  cases line.dropWhile isBlank with
  | nil => simp
  | cons c cs =>
    by_cases hc : c = '#'
    · simp [hc]
    · simp only [hc, beq_iff_eq, if_false, List.cons.injEq, false_and, reduceCtorEq, exists_false, or_false, iff_false]
      split
      · simp
      · split_ifs <;> simp

/-- A line that is not skipped and begins with eight digits is their byte, or malformed by what stands around them. -/
theorem lineKind_of_binDigits {line cs tail : List Char} {c : Char} {v : Nat} (h : line.dropWhile isBlank = c :: cs)
    (hc : c ≠ '#') (hdigits : binDigits 8 0 (c :: cs) = some (v, tail)) :
    lineKind line = if tailOk tail && ((line.head?.map isBlank != some true) || Config.loaderAllowsLeadingSpace) then
      .byte (BitVec.ofNat 8 v) else .malformed := by
  simp [lineKind, h, hc, hdigits]

/-- A line of a byte has eight digits after its leading white space, with an admissible tail. -/
theorem exists_binDigits_of_lineKind_byte {line : List Char} {b : Byte} (h : lineKind line = .byte b) :
    ∃ v tail, binDigits 8 0 (line.dropWhile isBlank) = some (v, tail) ∧ tailOk tail = true := by
  rw [lineKind] at h
  cases hl : line.dropWhile isBlank with
  | nil => simp [hl] at h
  | cons c cs =>
    rw [hl] at h
    dsimp only at h
    split_ifs at h
    cases hd : binDigits 8 0 (c :: cs) with
    | none => simp [hd] at h
    | some p =>
      rw [hd] at h
      dsimp only at h
      split_ifs at h with hok
      exact ⟨p.1, p.2, rfl, Bool.and_elim_left hok⟩

/-- A binary digit of a program line. -/
def bitChar (d : Bool) : Char := if d then '1' else '0'

theorem binDigit_bitChar (d : Bool) : binDigit (bitChar d) = some d := by cases d <;> decide

theorem bitChar_not_blank (d : Bool) : isBlank (bitChar d) = false := by cases d <;> decide

theorem bitChar_ne_hash (d : Bool) : bitChar d ≠ '#' := by cases d <;> decide

/-- The n low bits of a number as digits, most significant first. -/
def lowDigits : Nat → Nat → List Char
  | 0, _ => []
  | n + 1, x => bitChar (x.testBit n) :: lowDigits n x

theorem byteLine_eq_lowDigits (b : Byte) : byteLine b = lowDigits 8 b.toNat := rfl

/-- Reading the n low digits after the value of the higher ones gives the number (30_encoding.md R60). -/
theorem binDigits_lowDigits (x : Nat) (tail : List Char) (n : Nat) :
    binDigits n (x / 2 ^ n) (lowDigits n x ++ tail) = some (x, tail) := by
  induction n with
  | zero => simp [binDigits, lowDigits]
  | succ n ih =>
    have hvalue : 2 * (x / 2 ^ (n + 1)) + (x.testBit n).toNat = x / 2 ^ n := by
      rw [Nat.toNat_testBit, Nat.pow_succ, ← Nat.div_div_eq_div_mul]
      exact Nat.div_add_mod _ 2
    rw [lowDigits, List.cons_append, binDigits, binDigit_bitChar]
    dsimp only
    rw [hvalue, ih]

theorem binDigits_byteLine (b : Byte) (tail : List Char) : binDigits 8 0 (byteLine b ++ tail) = some (b.toNat, tail) := by
  have h := binDigits_lowDigits b.toNat tail 8
  rwa [Nat.div_eq_of_lt b.isLt, ← byteLine_eq_lowDigits] at h

/-- A byte's digits after white space are that byte, or malformed by what stands around them. -/
theorem lineKind_lead_byteLine {lead : List Char} (hlead : allBlank lead) (b : Byte) (tail : List Char) :
    lineKind (lead ++ (byteLine b ++ tail)) =
      if tailOk tail && (((lead ++ (byteLine b ++ tail)).head?.map isBlank != some true) ||
        Config.loaderAllowsLeadingSpace) then .byte b else .malformed := by
  have hcons : byteLine b ++ tail = bitChar (b.toNat.testBit 7) :: (lowDigits 7 b.toNat ++ tail) := rfl
  have hdrop : (lead ++ (byteLine b ++ tail)).dropWhile isBlank = byteLine b ++ tail := by
    rw [dropWhile_isBlank_append hlead, hcons, List.dropWhile_cons_of_neg (by simp [bitChar_not_blank])]
  rw [lineKind_of_binDigits (hdrop.trans hcons) (bitChar_ne_hash _) (hcons ▸ binDigits_byteLine b tail), BitVec.ofNat_toNat,
    BitVec.setWidth_eq]

/-- A tail of white space, or of white space and a comment, is admissible (30_encoding.md R60). -/
theorem tailOk_of_blankOrComment {tail : List Char} (h : blankOrComment tail) (hhash : tail.head? ≠ some '#') :
    tailOk tail = true := by
  cases tail with
  | nil => rfl
  | cons c cs =>
    have hc : c ≠ '#' := by simpa using hhash
    rw [blankOrComment_iff] at h
    cases hb : isBlank c with
    | false => simp [hb, hc] at h
    | true =>
      rw [List.dropWhile_cons_of_pos hb] at h
      rcases h with hnil | ⟨rest, hrest⟩
      · simp [tailOk, hc, hb, hnil]
      · simp [tailOk, hc, hb, hrest]

/-- An admissible tail has the form of a skipped line; after the digits a comment alone is a free value's matter. -/
theorem blankOrComment_of_tailOk {tail : List Char} (h : tailOk tail = true) : blankOrComment tail := by
  rw [blankOrComment_iff]
  cases tail with
  | nil => exact .inl rfl
  | cons c cs =>
    by_cases hc : c = '#'
    · subst hc
      exact .inr ⟨cs, List.dropWhile_cons_of_neg (by simp [hash_not_blank])⟩
    · cases hb : isBlank c with
      | false => simp [tailOk, hc, hb] at h
      | true =>
        rw [List.dropWhile_cons_of_pos hb]
        cases hd : cs.dropWhile isBlank with
        | nil => exact .inl rfl
        | cons d ds =>
          have hhash : d = '#' := by simpa [tailOk, hc, hb, hd] using h
          exact .inr ⟨ds, by rw [hhash]⟩

/-- The byte whose bits 7 down to 0 are the first eight digits of a line. -/
def lineByte (digits : List Char) : Byte := BitVec.ofFnLE fun i : Fin 8 => digits[7 - i.val]? == some '1'

theorem getLsbD_lineByte (digits : List Char) {k : Nat} (hk : k < 8) :
    (lineByte digits).getLsbD (7 - k) = (digits[k]? == some '1') := by
  have hlt : 7 - k < 8 := by omega
  have hsub : 7 - (7 - k) = k := by omega
  rw [lineByte, BitVec.getLsbD_ofFnLE, dif_pos hlt, hsub]

/-- Eight binary digits are a byte's line. -/
theorem eq_byteLine_lineByte {digits : List Char} (hlen : digits.length = 8) (hbin : ∀ c ∈ digits, c = '0' ∨ c = '1') :
    digits = byteLine (lineByte digits) := by
  refine List.ext_getElem (by simp [hlen, byteLine]) fun k hk _ => ?_
  have hbit := getLsbD_lineByte digits (hlen ▸ hk)
  rw [List.getElem?_eq_getElem hk] at hbit
  rcases hbin _ (List.getElem_mem hk) with hc | hc
  · simp [byteLine, hbit, hc]
  · simp [byteLine, hbit, hc]

theorem eq_of_binDigit_eq_some {c : Char} {d : Bool} (h : binDigit c = some d) : c = '0' ∨ c = '1' := by
  unfold binDigit at h
  split_ifs at h with h0 h1
  · exact .inl (eq_of_beq h0)
  · exact .inr (eq_of_beq h1)

/-- What is read as n digits are n binary digits. -/
theorem exists_digits_of_binDigits {n : Nat} : ∀ {acc v : Nat} {cs tail : List Char}, binDigits n acc cs = some (v, tail) →
    ∃ digits : List Char, digits.length = n ∧ (∀ c ∈ digits, c = '0' ∨ c = '1') ∧ cs = digits ++ tail := by
  induction n with
  | zero =>
    intro acc v cs tail h
    cases h
    exact ⟨[], rfl, by simp, rfl⟩
  | succ n ih =>
    intro acc v cs tail h
    cases cs with
    | nil => cases h
    | cons c cs =>
      rw [binDigits] at h
      cases hd : binDigit c with
      | none => simp [hd] at h
      | some d =>
        rw [hd] at h
        obtain ⟨digits, hlen, hbin, rfl⟩ := ih h
        exact ⟨c :: digits, by simp [hlen], List.forall_mem_cons.mpr ⟨eq_of_binDigit_eq_some hd, hbin⟩, rfl⟩

/-- A line of a byte has the form of one: white space, the byte's digits, and a tail like a skipped line. -/
theorem exists_form_of_lineKind_byte {line : List Char} {b : Byte} (h : lineKind line = .byte b) :
    ∃ (b : Byte) (lead tail : List Char), allBlank lead ∧ blankOrComment tail ∧ line = lead ++ byteLine b ++ tail := by
  obtain ⟨v, tail, hdigits, htail⟩ := exists_binDigits_of_lineKind_byte h
  obtain ⟨digits, hlen, hbin, hsplit⟩ := exists_digits_of_binDigits hdigits
  refine ⟨lineByte digits, line.takeWhile isBlank, tail, allBlank_takeWhile line, blankOrComment_of_tailOk htail, ?_⟩
  rw [← eq_byteLine_lineByte hlen hbin, List.append_assoc, ← hsplit, List.takeWhile_append_dropWhile]

/-- Eight digits at the start of a line with an admissible tail are their byte. -/
theorem lineKind_byteLine_append {tail : List Char} (htail : tailOk tail = true) (b : Byte) :
    lineKind (byteLine b ++ tail) = .byte b := by
  have h := lineKind_lead_byteLine (lead := []) (by simp [allBlank]) b tail
  have hfirst : isBlank (bitChar (b.toNat.testBit 7)) = false := bitChar_not_blank _
  rw [List.nil_append] at h
  rw [h, htail]
  have hhead : (byteLine b ++ tail).head? = some (bitChar (b.toNat.testBit 7)) := rfl
  simp [hhead, hfirst]

theorem lineKind_byteLine (b : Byte) : lineKind (byteLine b) = .byte b := by
  have h := lineKind_byteLine_append (tail := []) rfl b
  rwa [List.append_nil] at h

/-- The lines that write an image assemble to it. -/
theorem assembleLines_map_byteLine (image : List Byte) : assembleLines (image.map byteLine) = .ok image := by
  induction image with
  | nil => rfl
  | cons b rest ih => rw [List.map_cons, assembleLines, lineKind_byteLine, ih]

/-- A file's image depends on a part of it only through what that part assembles to. -/
theorem assembleLines_append_congr {rest rest' : List (List Char)} (h : assembleLines rest = assembleLines rest')
    (before : List (List Char)) : assembleLines (before ++ rest) = assembleLines (before ++ rest') := by
  induction before with
  | nil => exact h
  | cons line lines ih => rw [List.cons_append, List.cons_append, assembleLines, assembleLines, ih]

theorem assembleLines_cons_of_skipped {line : List Char} (h : lineKind line = .skipped) (rest : List (List Char)) :
    assembleLines (line :: rest) = assembleLines rest := by rw [assembleLines, h]

/-- Lines of the same kind count the same. -/
theorem assembleLines_cons_congr {line line' : List Char} (h : lineKind line = lineKind line') (rest : List (List Char)) :
    assembleLines (line :: rest) = assembleLines (line' :: rest) := by rw [assembleLines, assembleLines, h]

/-- A malformed line anywhere aborts the file (60_exceptions.md R124). -/
theorem assembleLines_of_malformed {lines : List (List Char)} (h : ∃ line ∈ lines, lineKind line = .malformed) :
    assembleLines lines = .error .malformedProgramLine := by
  induction lines with
  | nil => simp at h
  | cons head rest ih =>
    rw [assembleLines]
    cases hk : lineKind head with
    | malformed => rfl
    | skipped => exact ih (by simpa [hk] using h)
    | byte b =>
      dsimp only
      rw [ih (by simpa [hk] using h)]

/-- Settles O59: a line is classified by what follows its leading white space, eight digits are a byte's, and a file is assembled
line by line. -/
theorem programLinesGiveTheImage : Obligations.ProgramLinesGiveTheImage := by
  refine ⟨isBlank_iff, fun digits hlen hbin => ?digits, fun _ => lineKind_eq_skipped_iff, fun b tail htail hhash => ?atStart,
    fun b lead tail hlead _ => ?anywhere, fun line hskip hform => ?malformed, fun image s => ?image,
    fun before after line => ⟨fun hskip => ?skipped, fun b hb => ?byte⟩, fun lines s hbad => ?aborts⟩
  case digits =>
    refine ⟨lineByte digits, eq_byteLine_lineByte hlen hbin, fun k hk => ?_⟩
    rw [getLsbD_lineByte digits hk, beq_iff_eq]
  case atStart => exact lineKind_byteLine_append (tailOk_of_blankOrComment htail hhash) b
  case anywhere =>
    rw [List.append_assoc, lineKind_lead_byteLine hlead]
    split_ifs
    · exact .inl rfl
    · exact .inr rfl
  case malformed =>
    cases hk : lineKind line with
    | skipped => exact absurd (lineKind_eq_skipped_iff.mp hk) hskip
    | byte b => exact absurd (exists_form_of_lineKind_byte hk) hform
    | malformed => rfl
  case image => rw [loadProgram, assembleLines_map_byteLine]
  case skipped =>
    exact assembleLines_append_congr (assembleLines_cons_of_skipped (lineKind_eq_skipped_iff.mpr hskip) after) before
  case byte =>
    exact assembleLines_append_congr (assembleLines_cons_congr (hb.trans (lineKind_byteLine b).symm) after) before
  case aborts => rw [loadProgram, assembleLines_of_malformed hbad]

end Sys2Proof.Machine
end
